-- ==== Sys2Proof/Word.lean ====
section
/-! DEFINITION. The word types of the block (R6, R7): the 16-bit wire word, the 14-bit half of a
frequency word, the 28-bit frequency word and the 12-bit phase word, every one unsigned; and the two
operand values of a command (R81) as plain data. -/

namespace Sys2Proof

/-- A 16-bit word: a command header, a wire word, the control-register cache (R6, R7). -/
abbrev Word := BitVec 16

/-- A 14-bit half of a frequency word (R6, R11). -/
abbrev Half := BitVec 14

/-- The 28-bit frequency word (R6, R11). -/
abbrev FreqWord := BitVec 28

/-- The 12-bit phase word (R6, R11). -/
abbrev PhaseWord := BitVec 12

/-- A frequency in hertz, a real number: the `F` operand slot (R81) and `REFCLK_HZ` (R6). It is a rational, as every
`<hz>` literal of R95 is, or the real number number `n` of `Config.reals`, which may be any real number at all.
DESIGN CHOICE, log entry 2. -/
inductive Hertz where
  | rat (q : Rat)
  | real (n : Nat)
  deriving DecidableEq, Repr, Inhabited

/-- The angle `rad + piMul * π`. It holds every `<rad>` literal of R95 exactly: a decimal (`piMul = 0`) and `q*pi` or
`q*pi/n` (`rad = 0`). -/
structure AngleLit where
  rad   : Rat
  piMul : Rat
  deriving DecidableEq, Repr, Inhabited

/-- An angle in radians, a real number: the `P` operand slot (R81). It is one of the literals' angles, or the real
number number `n` of `Config.reals`. DESIGN CHOICE, log entry 2. -/
inductive Angle where
  | lit (a : AngleLit)
  | real (n : Nat)
  deriving DecidableEq, Repr, Inhabited

/-- The angle `p` radians. -/
def Angle.ofRad (p : Rat) : Angle := .lit ⟨p, 0⟩

/-- The angle `q*pi` (R95). -/
def Angle.ofPi (q : Rat) : Angle := .lit ⟨0, q⟩

end Sys2Proof
end

