-- ==== Sys2Proof/Syntax.lean ====
section
/-! DEFINITION. The instructions: the eleven commands of R82 and the five wire words of R61 (one
constructor for each row of spec/opcode_table.json), with the named operands they carry. The operand
slots `F` and `P` travel beside the header (R81), so they stand on the command port, not here. -/

namespace Sys2Proof

/-- A register or pair index, 0 or 1 (R80, field `r`). -/
inductive Reg where
  | r0
  | r1
  deriving DecidableEq, Repr, Inhabited

/-- The four waveforms of R84. -/
inductive Wave where
  | sine
  | triangle
  | square
  | squareHalf
  deriving DecidableEq, Repr, Inhabited

/-- The nine named flags of the control register (R22), in the order of their flag codes (R83). -/
inductive Field where
  | reset
  | mode
  | opbiten
  | fsel
  | psel
  | div2
  | sleep1
  | sleep12
  | b28
  deriving DecidableEq, Repr, Inhabited

/-- Why a command is refused (R220, `resp` code 3). -/
inductive RefuseReason where
  /-- `hdr[15:12]` is 0x0 or 0xC to 0xF (R85, R86). -/
  | reservedOpcode
  /-- A bit is set in a header field the opcode does not read (R85, R86). -/
  | nonzeroUnusedField
  /-- SETBIT with a flag code 9 to 15 (R85, R86). -/
  | reservedFlag
  /-- `fsm` is UNINIT and the opcode is not INIT (R191). -/
  | notInitialised
  /-- The policy is `refuse` and the frequency lies outside `[0, REFCLK_HZ)` (R133, R191). -/
  | freqOutOfRange
  deriving DecidableEq, Repr

/-- One row of the opcode table. A command's meaning is its accept step (R191); a wire word's meaning is
the transmit-completion step of that word (R192) with what the device then holds (R43 to R46). -/
inductive Instr where
  /-- 0x1, R195. -/
  | init
  /-- 0x2, R110: flag `B` and value `V`. -/
  | setbit (f : Field) (v : Bool)
  /-- 0x3, R111. -/
  | flush
  /-- 0x4, R160; the frequency is in the `F` slot. -/
  | setfreq (r : Reg)
  /-- 0x5, R161; the phase is in the `P` slot. -/
  | setphase (r : Reg)
  /-- 0x6, R162. -/
  | selfreq (r : Reg)
  /-- 0x7, R163. -/
  | selphase (r : Reg)
  /-- 0x8, R164. -/
  | setwave (w : Wave)
  /-- 0x9, R165. -/
  | rstassert
  /-- 0xA, R166. -/
  | rstrelease
  /-- 0xB, R193; the frequency is in the `F` slot and the phase in the `P` slot. -/
  | apply (r : Reg) (w : Wave)
  /-- Wire word 00, R88: the control register's bits 13:0. -/
  | ctrlWrite (c : BitVec 14)
  /-- Wire word 01, R89: a half for FREQ0. -/
  | freq0Write (d : Half)
  /-- Wire word 10, R89: a half for FREQ1. -/
  | freq1Write (d : Half)
  /-- Wire word 110, R90: bit 12 and the phase word for PHASE0. -/
  | phase0Write (z : Bool) (d : PhaseWord)
  /-- Wire word 111, R90: bit 12 and the phase word for PHASE1. -/
  | phase1Write (z : Bool) (d : PhaseWord)
  deriving DecidableEq, Repr

/-- The bit a register index stands for in a header, a select bit and a phase tag. -/
def Reg.bit : Reg → Bool
  | .r0 => false
  | .r1 => true

/-- Whether the instruction is one of the eleven commands (the table's format CMD). -/
def Instr.isCommand : Instr → Bool
  | .init | .setbit _ _ | .flush | .setfreq _ | .setphase _ | .selfreq _ | .selphase _
  | .setwave _ | .rstassert | .rstrelease | .apply _ _ => true
  | .ctrlWrite _ | .freq0Write _ | .freq1Write _ | .phase0Write _ _ | .phase1Write _ _ => false

end Sys2Proof
end

