-- ==== Sys2Proof/Config.lean ====
section
/-! DEFINITION. The real numbers that operands and parameters stand for (R6, R81), and the implementation
parameters of R6. They are configuration: no command changes them.
`Params` is what a model takes as an argument; `Config.params` are the parameters of the machine that
`State.reset` starts, with the defaults of R6 and, where R6 says OPEN, constants without a body. -/

namespace Sys2Proof

/-! ## Real numbers -/

/-- The real number a frequency stands for, with `table` the numbers that have no rational name. -/
def Hertz.valueIn (table : Nat → ℝ) : Hertz → ℝ
  | .rat q => (q : ℝ)
  | .real n => table n

/-- A frequency with 0 for every number of the table. -/
def Hertz.zeroed : Hertz → Rat
  | .rat q => q
  | .real _ => 0

theorem Hertz.valueIn_zero (a : Hertz) : a.valueIn (fun _ => 0) = ((a.zeroed : Rat) : ℝ) := by
  cases a <;> simp [Hertz.valueIn, Hertz.zeroed]

/-- A table of real numbers, with what the block computes from them: the order of two frequencies (R133), the
frequency quotient of a clock and a frequency (R130), and the rounded phase of a number of radians (R135). The
laws fix all three by the numbers; the defaults are the table of zeros, which shows that there is a table. -/
structure RealTable where
  value : Nat → ℝ := fun _ => 0
  less : Hertz → Hertz → Bool := fun a b => decide (a.zeroed < b.zeroed)
  quotient : Hertz → Hertz → Int := fun refclk F => ⌊F.zeroed * 2 ^ 28 / refclk.zeroed⌋
  phase : Nat → Int := fun _ => 0
  less_iff : ∀ a b, less a b = true ↔ a.valueIn value < b.valueIn value := by
    intro a b
    simp only [Hertz.valueIn_zero]
    rw [decide_eq_true_iff]
    exact Rat.cast_lt.symm
  quotient_eq : ∀ refclk F, quotient refclk F = ⌊F.valueIn value * 2 ^ 28 / refclk.valueIn value⌋ := by
    intro refclk F
    simp only [Hertz.valueIn_zero]
    rw [← Rat.floor_cast (α := ℝ)]
    push_cast
    rfl
  phase_eq : ∀ n, phase n = ⌊value n * 2048 / Real.pi + 1 / 2⌋ := by
    intro n
    norm_num
  deriving Inhabited

/-- The real numbers the caller and the board hold beside the ones with a name: a constant without a body, so what
holds of `Hertz.real n` and `Angle.real n` holds of every real number. Log entry 2. -/
opaque Config.reals : RealTable

/-- The real number a frequency stands for. -/
noncomputable def Hertz.value (a : Hertz) : ℝ := a.valueIn Config.reals.value

/-- The real number an angle stands for. -/
noncomputable def Angle.value : Angle → ℝ
  | .lit a => (a.rad : ℝ) + (a.piMul : ℝ) * Real.pi
  | .real n => Config.reals.value n

/-- `a < b`, as real numbers. -/
def Hertz.lt (a b : Hertz) : Bool :=
  match a, b with
  | .rat p, .rat q => decide (p < q)
  | .rat _, .real _ | .real _, .rat _ | .real _, .real _ => Config.reals.less a b

/-! ## Parameters -/

/-- The policy for a frequency outside `[0, REFCLK_HZ)` (R6, R133). -/
inductive RangePolicy where
  | wrap
  | refuse
  deriving DecidableEq, Repr

/-- The parameters of R6. `refclk` is `REFCLK_HZ`, `ctrlInit` is `CTRL_INIT`, the four `init…` fields are
the startup configuration of INIT and `freqOutOfRange` is `FREQ_OUT_OF_RANGE`. -/
structure Params where
  refclk         : Hertz
  ctrlInit       : Word
  initPair       : Reg
  initFreq       : Hertz
  initPhase      : Angle
  initWave       : Wave
  freqOutOfRange : RangePolicy
  deriving DecidableEq, Repr

/-- The bits of the control register that carry a named flag (R22): 13, 11, 10, 8, 7, 6, 5, 3 and 1. -/
def namedBits : Word := 0x2DEA

/-- The constraints R6 and R21 put on the parameters: `REFCLK_HZ > 0`, `CTRL_INIT` clear in the bits that
are hardwired 0, and `0 <= INIT_FREQ_HZ < REFCLK_HZ`. -/
def Params.wf (p : Params) : Bool :=
  (Hertz.rat 0).lt p.refclk && (p.ctrlInit &&& ~~~namedBits == 0) &&
    !p.initFreq.lt (.rat 0) && p.initFreq.lt p.refclk

/-- `INIT_PAIR`: OPEN (R6, D6), so a constant without a body. Log entry 4. -/
opaque Config.initPair : Reg

/-- A frequency without a body, from which `INIT_FREQ_HZ` is taken. Log entry 4. -/
opaque Config.initFreqChoice : Hertz

/-- `INIT_PHASE_RAD`: OPEN (R6, D6), so a constant without a body. Log entry 4. -/
opaque Config.initPhase : Angle

/-- `INIT_WAVE`: OPEN (R6, D6), so a constant without a body. Log entry 4. -/
opaque Config.initWave : Wave

/-- `REFCLK_HZ` of the reference implementation (R6, D2). -/
def Config.refclk : Hertz := .rat 8000000

/-- `INIT_FREQ_HZ`: OPEN within `[0, REFCLK_HZ)` (R6, D6). Every value of that range is a possible value of
this constant. Log entry 4. -/
def Config.initFreq : Hertz :=
  if !Config.initFreqChoice.lt (.rat 0) && Config.initFreqChoice.lt Config.refclk then Config.initFreqChoice else .rat 0

/-- The parameters of the machine that `State.reset` starts: the defaults of R6. -/
def Config.params : Params where
  refclk         := Config.refclk
  ctrlInit       := 0x0000
  initPair       := Config.initPair
  initFreq       := Config.initFreq
  initPhase      := Config.initPhase
  initWave       := Config.initWave
  freqOutOfRange := .wrap

end Sys2Proof
end

