-- ==== Sys2Proof/WellFormed.lean ====
section
/-! DEFINITION. Well-formed instructions. The operand types of a command admit exactly the values of R80,
R83 and R84 (a flag code 9 to 15 has no `Field`), so the one check left is on a phase word: the block
always sends its bit 12 as 0 (R90). -/

namespace Sys2Proof

/-- The instruction is one a caller can present, or a word the block can emit. -/
def Instr.wf : Instr → Bool
  | .phase0Write z _ => !z
  | .phase1Write z _ => !z
  | .init | .setbit _ _ | .flush | .setfreq _ | .setphase _ | .selfreq _ | .selphase _
  | .setwave _ | .rstassert | .rstrelease | .apply _ _ => true
  | .ctrlWrite _ | .freq0Write _ | .freq1Write _ => true

end Sys2Proof
end

