-- ==== Sys2Proof/Decode.lean ====
section
/-! DEFINITION. The two decoders of the block and their encoder. A command header is decoded by R85, at the
command port; a wire word is decoded by R61 and R91, at the device. `encode` is written from R80 to R84
and R88 to R90. -/

namespace Sys2Proof

/-! ## Command headers -/

/-- The opcodes of R82. -/
inductive Opcode where
  | init
  | setbit
  | flush
  | setfreq
  | setphase
  | selfreq
  | selphase
  | setwave
  | rstassert
  | rstrelease
  | apply
  deriving DecidableEq, Repr

/-- What a header decodes to (R85): a command, or a refusal by name. -/
inductive HeaderDecode where
  | cmd (i : Instr)
  | refused (r : RefuseReason)
  deriving DecidableEq, Repr

/-- R82: the opcode of `hdr[15:12]`; 0x0 and 0xC to 0xF are reserved. -/
def opcodeOf : Nat → Option Opcode
  | 0x1 => some .init
  | 0x2 => some .setbit
  | 0x3 => some .flush
  | 0x4 => some .setfreq
  | 0x5 => some .setphase
  | 0x6 => some .selfreq
  | 0x7 => some .selphase
  | 0x8 => some .setwave
  | 0x9 => some .rstassert
  | 0xA => some .rstrelease
  | 0xB => some .apply
  | _ => none

/-- R82, the other way: the four bits of an opcode. -/
def Opcode.code : Opcode → BitVec 4
  | .init => 0x1
  | .setbit => 0x2
  | .flush => 0x3
  | .setfreq => 0x4
  | .setphase => 0x5
  | .selfreq => 0x6
  | .selphase => 0x7
  | .setwave => 0x8
  | .rstassert => 0x9
  | .rstrelease => 0xA
  | .apply => 0xB

/-- R85, `UsedMask`: the header bits 11:0 an opcode reads. -/
def usedMask : Opcode → BitVec 12
  | .init | .flush | .rstassert | .rstrelease => 0x000
  | .setbit => 0x1F0
  | .setfreq | .setphase | .selfreq | .selphase => 0x800
  | .setwave => 0x600
  | .apply => 0xE00

/-- R83: the flag a code names; 9 to 15 are reserved. -/
def fieldOfCode : Nat → Option Field
  | 0 => some .reset
  | 1 => some .mode
  | 2 => some .opbiten
  | 3 => some .fsel
  | 4 => some .psel
  | 5 => some .div2
  | 6 => some .sleep1
  | 7 => some .sleep12
  | 8 => some .b28
  | _ => none

/-- R83, the other way: the code of a flag. -/
def Field.code : Field → BitVec 4
  | .reset => 0
  | .mode => 1
  | .opbiten => 2
  | .fsel => 3
  | .psel => 4
  | .div2 => 5
  | .sleep1 => 6
  | .sleep12 => 7
  | .b28 => 8

/-- R84: the waveform of a two-bit code. -/
def waveOfCode (hi lo : Bool) : Wave :=
  match hi, lo with
  | false, false => .sine
  | false, true => .triangle
  | true, false => .square
  | true, true => .squareHalf

/-- R84, the other way: the code of a waveform. -/
def Wave.code : Wave → BitVec 2
  | .sine => 0
  | .triangle => 1
  | .square => 2
  | .squareHalf => 3

/-- The register index of a one-bit field (R80). -/
def regOfBit : Bool → Reg
  | false => .r0
  | true => .r1

/-- The header's fields (R80). -/
def hdrOp (hdr : Word) : BitVec 4 := hdr.extractLsb' 12 4
def hdrLow (hdr : Word) : BitVec 12 := hdr.extractLsb' 0 12
def hdrReg (hdr : Word) : Reg := regOfBit (hdr.getLsbD 11)
def hdrWave (hdr : Word) : Wave := waveOfCode (hdr.getLsbD 10) (hdr.getLsbD 9)
def hdrFlag (hdr : Word) : BitVec 4 := hdr.extractLsb' 5 4
def hdrValue (hdr : Word) : Bool := hdr.getLsbD 4

/-- The command of an opcode, once its unused fields are known to be 0: the last check of R85 is SETBIT's
flag code. -/
def decodeOperands (op : Opcode) (hdr : Word) : HeaderDecode :=
  match op with
  | .init => .cmd .init
  | .setbit =>
    match fieldOfCode (hdrFlag hdr).toNat with
    | some f => .cmd (.setbit f (hdrValue hdr))
    | none => .refused .reservedFlag
  | .flush => .cmd .flush
  | .setfreq => .cmd (.setfreq (hdrReg hdr))
  | .setphase => .cmd (.setphase (hdrReg hdr))
  | .selfreq => .cmd (.selfreq (hdrReg hdr))
  | .selphase => .cmd (.selphase (hdrReg hdr))
  | .setwave => .cmd (.setwave (hdrWave hdr))
  | .rstassert => .cmd .rstassert
  | .rstrelease => .cmd .rstrelease
  | .apply => .cmd (.apply (hdrReg hdr) (hdrWave hdr))

/-- R85: the checks in the order written; the first one that fails names the reason. -/
def decodeHeader (hdr : Word) : HeaderDecode :=
  match opcodeOf (hdrOp hdr).toNat with
  | none => .refused .reservedOpcode
  | some op =>
    if hdrLow hdr &&& ~~~(usedMask op) = 0 then decodeOperands op hdr
    else .refused .nonzeroUnusedField

/-! ## Wire words -/

/-- R61 and R91: the target of a wire word and its payload. All 2^16 words decode. -/
def decodeWire (w : Word) : Instr :=
  match w.getLsbD 15, w.getLsbD 14, w.getLsbD 13 with
  | false, false, _ => .ctrlWrite (w.extractLsb' 0 14)
  | false, true, _ => .freq0Write (w.extractLsb' 0 14)
  | true, false, _ => .freq1Write (w.extractLsb' 0 14)
  | true, true, false => .phase0Write (w.getLsbD 12) (w.extractLsb' 0 12)
  | true, true, true => .phase1Write (w.getLsbD 12) (w.extractLsb' 0 12)

/-! ## The encoder -/

/-- A header of R80: opcode, `r`, `W`, `B`, `V` and the reserved bits 3:0, most significant first. -/
def packHeader (op : Opcode) (r : Bool) (w : BitVec 2) (b : BitVec 4) (v : Bool) : Word :=
  op.code ++ BitVec.ofBool r ++ w ++ b ++ BitVec.ofBool v ++ (0#4)

/-- R88: `0b00 ++ c[13:0]`. -/
def packCtrl (c : BitVec 14) : Word := (0b00#2) ++ c

/-- R89: the tag of FREQr. -/
def freqTag : Reg → BitVec 2
  | .r0 => 0b01
  | .r1 => 0b10

/-- R89, `FreqWordTagged(r, d)`: the tag of FREQr over a 14-bit half. -/
def freqWordTagged (r : Reg) (d : Half) : Word := freqTag r ++ d

/-- R90: `0b11 ++ r ++ z ++ d`, with bit 12 as given. -/
def packPhase (r : Reg) (z : Bool) (d : PhaseWord) : Word :=
  (0b11#2) ++ BitVec.ofBool r.bit ++ BitVec.ofBool z ++ d

/-- R90, `PhaseWordTagged(r, d)`: bit 12 is always sent as 0. -/
def phaseWordTagged (r : Reg) (d : PhaseWord) : Word := packPhase r false d

/-- The word of an instruction: a header (R80 to R84) or a wire word (R88 to R90). -/
def encode : Instr → Word
  | .init => packHeader .init false 0 0 false
  | .setbit f v => packHeader .setbit false 0 f.code v
  | .flush => packHeader .flush false 0 0 false
  | .setfreq r => packHeader .setfreq r.bit 0 0 false
  | .setphase r => packHeader .setphase r.bit 0 0 false
  | .selfreq r => packHeader .selfreq r.bit 0 0 false
  | .selphase r => packHeader .selphase r.bit 0 0 false
  | .setwave w => packHeader .setwave false w.code 0 false
  | .rstassert => packHeader .rstassert false 0 0 false
  | .rstrelease => packHeader .rstrelease false 0 0 false
  | .apply r w => packHeader .apply r.bit w.code 0 false
  | .ctrlWrite c => packCtrl c
  | .freq0Write d => freqWordTagged .r0 d
  | .freq1Write d => freqWordTagged .r1 d
  | .phase0Write z d => packPhase .r0 z d
  | .phase1Write z d => packPhase .r1 z d

/-! ## One word of the opcode table -/

/-- The instruction of a word of spec/opcode_table.json. The table lists two encodings in one space of 16
bits; a word that is a valid command header is read as that command (the command port's decoder), and any
other word as the wire word it is (the device's decoder). DESIGN CHOICE, log entry 7. -/
def decodeTable (w : Word) : Instr :=
  match decodeHeader w with
  | .cmd i => i
  | .refused _ => decodeWire w

/-- `decodeTable` on the host's numbering of a row's bits: every row has one 16-bit word. -/
def decodeTableWord (nbits w : Nat) : Option Instr :=
  if nbits = 16 ∧ w < 2 ^ 16 then some (decodeTable (BitVec.ofNat 16 w)) else none

end Sys2Proof
end

