-- ==== Sys2Proof/Machine/State.lean ====
section
/-! DEFINITION. The state of the machine as plain data: the block's own state (R20), its ports (R33), the
receiver view of the device (R40, R41), the words the transport has carried (R233), and the fixed
parameters (R6); the reasons a step can stop; and the state after power-on (R34, R250). -/

namespace Sys2Proof.Machine

/-! ## The block (R20) -/

/-- R26: the sequencer's state machine. -/
inductive Fsm where
  | uninit
  | idle
  | reconf
  deriving DecidableEq, Repr, Inhabited

/-- The states a micro-operation can enter (R190); no transition enters UNINIT (R196). -/
inductive FsmTarget where
  | idle
  | reconf
  deriving DecidableEq, Repr

/-- R190: the micro-operations. -/
inductive MicroOp where
  /-- `SET(F, b)`: `ctrl.F <- b`. -/
  | set (f : Field) (b : Bool)
  /-- `LOAD(c)`: `ctrl <- c`. -/
  | load (c : Word)
  /-- `FSM(s)`: `fsm <- s`. -/
  | fsm (t : FsmTarget)
  /-- `EMIT_CTRL`: present `CtrlWord(ctrl)`, `ctrl` as it is when this operation runs. -/
  | emitCtrl
  /-- `EMIT(w)`: present `w`, fixed when the command was accepted. -/
  | emit (w : Word)
  deriving DecidableEq, Repr

/-- The transport's error value: opaque, recorded and never interpreted (U5). -/
structure TransportError where
  code : Nat
  deriving DecidableEq, Repr

/-- R30: the result of the last command. -/
inductive Resp where
  | none
  | ok
  | transportError (k : Nat) (w : Word) (e : TransportError)
  | refused (r : RefuseReason)
  deriving DecidableEq, Repr

/-! ## The ports (R33) -/

/-- What the caller presents on the command port: the header and the two operand slots (R80, R81). -/
structure Command where
  hdr : Word
  F   : Hertz
  P   : Angle
  deriving DecidableEq, Repr

/-- What the transport answers to one request (R33, R192). -/
inductive TxResult where
  | ok
  | err (e : TransportError)
  deriving DecidableEq, Repr

/-- One completed transmit: the word and the transport's result. -/
structure Sent where
  word   : Word
  result : TxResult
  deriving DecidableEq, Repr

/-! ## The receiver view (R40, R41) -/

/-- A component of the receiver view: a known value, or nothing claimed (R40). -/
inductive Known (α : Type) where
  | unknown
  | known (v : α)
  deriving DecidableEq, Repr

/-- R41: a low half received, its high half awaited. -/
inductive Pend where
  | none
  | lo (r : Reg) (d : Half)
  | unknown
  deriving DecidableEq, Repr

/-- R41: what the device holds. `freq` and `phase` of the rule are two registers each. -/
structure Rx where
  ctrl   : Known Word
  freq0  : Known FreqWord
  freq1  : Known FreqWord
  phase0 : Known PhaseWord
  phase1 : Known PhaseWord
  pend   : Pend
  deriving DecidableEq, Repr

/-- R42: at power-on every component is Unknown. -/
def Rx.powerOn : Rx := ⟨.unknown, .unknown, .unknown, .unknown, .unknown, .unknown⟩

/-- R47: what drives the output. `shape` is (MODE, OPBITEN, DIV2). -/
inductive Out where
  | unknown
  | forced
  | running (freq : Known FreqWord) (phase : Known PhaseWord) (mode opbiten div2 : Bool)
  deriving DecidableEq, Repr

/-! ## The whole state -/

/-- The machine. `cmds` and `answers` are the caller's and the transport's side of the ports, held as the
inputs the step reads: the head of `cmds` is the command presented (`cmd_valid` is that there is one), and
the head of `answers` is the transport's result for the request in flight (log entries 5 and 6). -/
structure State where
  /-- The parameters of R6; no step writes them (log entry 3). -/
  params  : Params
  /-- R21: the control-register cache. -/
  ctrl    : Word
  /-- R26. -/
  fsm     : Fsm
  /-- R27: a command is in progress. -/
  busy    : Bool
  /-- R28: the micro-operations still to run. -/
  uprog   : List MicroOp
  /-- R28: words the current command has emitted with `Ok`. -/
  wcount  : Nat
  /-- R30. -/
  resp    : Resp
  /-- R33, transport port: the word presented. -/
  txWord  : Word
  /-- R33, transport port: a request is in flight. -/
  txReq   : Bool
  /-- R33, command port: the commands the caller presents, the first of them now. -/
  cmds    : List Command
  /-- R33, transport port: the results the transport gives, the next one first. -/
  answers : List TxResult
  /-- R40: the receiver view, an observation. -/
  rx      : Rx
  /-- R233: the completed transmits, oldest first, an observation. -/
  log     : List Sent
  deriving DecidableEq, Repr

/-- A step never stops with a fault: "No behaviour of the block is treated as `fault`" (file 93). The
inductive has no constructor, so nothing raises one (safe). -/
inductive Fault where
  deriving DecidableEq, Repr

/-- Why exec gives an instruction no meaning. The spec's own refusals (R220) are no such stop: they are a
next state with `resp = REFUSED`. -/
inductive Refusal where
  /-- Raised by exec's arm of an instruction that has no meaning yet (safe); no arm raises it. -/
  | notModelled (mnemonic : String)
  deriving DecidableEq, Repr

/-- R34 and R250: the state after power-on. `ctrl` is unspecified there and `tx_word` is not named: both 0
here (log entry 1). Nothing is presented yet and no transmit has been made. -/
def State.reset : State where
  params  := Config.params
  ctrl    := 0x0000
  fsm     := .uninit
  busy    := false
  uprog   := []
  wcount  := 0
  resp    := .none
  txWord  := 0x0000
  txReq   := false
  cmds    := []
  answers := []
  rx      := Rx.powerOn
  log     := []

end Sys2Proof.Machine
end

