-- ==== Sys2Proof/Machine/Flags.lean ====
section
/-! DEFINITION. The named flags of the control register: their positions (R22), the bit helpers (R113), the
control word (R88) and the waveform's flag writes (R164). -/

namespace Sys2Proof.Machine

/-- R22: the bit position of a named flag. -/
def fieldPos : Field → Nat
  | .b28 => 13
  | .fsel => 11
  | .psel => 10
  | .reset => 8
  | .sleep1 => 7
  | .sleep12 => 6
  | .opbiten => 5
  | .div2 => 3
  | .mode => 1

/-- R113: `get_flag(c, F) = c[pos(F)]`. -/
def getFlag (c : Word) (f : Field) : Bool := c.getLsbD (fieldPos f)

/-- R113: `set_flag(c, F, b) = (c & ~(1 << pos(F))) | (b << pos(F))`. -/
def setFlag (c : Word) (f : Field) (b : Bool) : Word :=
  (c &&& ~~~((1 : Word) <<< fieldPos f)) ||| ((BitVec.ofBool b).setWidth 16 <<< fieldPos f)

/-- A write of the whole cache (R190, LOAD): the seven unnamed bits are hardwired 0 (R21, R23). -/
def loadCtrl (c : Word) : Word := c &&& namedBits

/-- R88: `CtrlWord(c) = 0b00 ++ c[13:0]`. -/
def ctrlWord (c : Word) : Word := packCtrl (c.extractLsb' 0 14)

/-- R164: the flag writes of a waveform, in the order MODE, OPBITEN, DIV2. -/
def waveSets : Wave → List MicroOp
  | .sine => [.set .mode false, .set .opbiten false]
  | .triangle => [.set .mode true, .set .opbiten false]
  | .square => [.set .mode false, .set .opbiten true, .set .div2 true]
  | .squareHalf => [.set .mode false, .set .opbiten true, .set .div2 false]

/-- The cache after a waveform's flag writes. -/
def setWave (c : Word) : Wave → Word
  | .sine => setFlag (setFlag c .mode false) .opbiten false
  | .triangle => setFlag (setFlag c .mode true) .opbiten false
  | .square => setFlag (setFlag (setFlag c .mode false) .opbiten true) .div2 true
  | .squareHalf => setFlag (setFlag (setFlag c .mode false) .opbiten true) .div2 false

end Sys2Proof.Machine
end

