-- ==== Sys2Proof/Machine/Pi.lean ====
section
/-! DEFINITION. Rational bounds of π. R135 divides by π exactly (R8, R138), and a named angle is rational in radians and in
multiples of π (log entry 2), so the phase encoder needs π enclosed as tightly as an operand asks for: Machin's formula with
the partial sums of the arctangent series, the lower and the upper bound of each length, proved to enclose
π and to converge to it. -/

namespace Sys2Proof.Machine

/-- The `k`-th term, without its sign, of the series of arctan (1/x). -/
def arctanTerm (x k : Nat) : Rat := 1 / (((2 * k + 1) * x ^ (2 * k + 1) : Nat) : Rat)

/-- The sum of the first `n` terms of the series of arctan (1/x). -/
def arctanSum (x : Nat) : Nat → Rat
  | 0 => 0
  | n + 1 => if n % 2 = 0 then arctanSum x n + arctanTerm x n else arctanSum x n - arctanTerm x n

/-- A lower bound of π, from below as `n` grows. -/
def piLower (n : Nat) : Rat := max 3 (16 * arctanSum 5 (2 * n) - 4 * arctanSum 239 (2 * n + 1))

/-- An upper bound of π, from above as `n` grows. -/
def piUpper (n : Nat) : Rat := 16 * arctanSum 5 (2 * n + 1) - 4 * arctanSum 239 (2 * n)

theorem arctanSum_cast (x n : Nat) :
    ((arctanSum x n : Rat) : ℝ) =
      ∑ i ∈ Finset.range n, (-1) ^ i * (1 / (((2 * i + 1) * x ^ (2 * i + 1) : Nat) : ℝ)) := by
  induction n with
  | zero => simp [arctanSum]
  | succ n ih =>
    rw [Finset.sum_range_succ, ← ih, arctanSum]
    split
    · next h => rw [(Nat.even_iff.2 h).neg_one_pow]; simp [arctanTerm]
    · next h =>
      rw [(Nat.odd_iff.2 (by omega : n % 2 = 1)).neg_one_pow]; simp [arctanTerm, sub_eq_add_neg]

theorem arctanSum_tendsto (x : Nat) (hx : 2 ≤ x) :
    Filter.Tendsto (fun n => ((arctanSum x n : Rat) : ℝ)) Filter.atTop
      (nhds (Real.arctan ((x : ℝ)⁻¹))) := by
  have hx' : (1 : ℝ) < x := by exact_mod_cast hx
  have h : ‖((x : ℝ)⁻¹)‖ < 1 := by
    rw [norm_inv, Real.norm_natCast]; exact inv_lt_one_of_one_lt₀ hx'
  refine (Real.hasSum_arctan h).tendsto_sum_nat.congr fun n => ?_
  rw [arctanSum_cast]
  refine Finset.sum_congr rfl fun i _ => ?_
  push_cast
  rw [inv_pow, mul_div_assoc, one_div, mul_inv, div_eq_mul_inv, mul_comm (((x : ℝ) ^ (2 * i + 1))⁻¹)]

theorem arctanTerm_antitone (x : Nat) (hx : 1 ≤ x) :
    Antitone fun i : ℕ => (1 / (((2 * i + 1) * x ^ (2 * i + 1) : Nat) : ℝ)) := by
  refine antitone_nat_of_succ_le fun i => ?_
  apply one_div_le_one_div_of_le
  · positivity
  · have : x ^ (2 * i + 1) ≤ x ^ (2 * (i + 1) + 1) := Nat.pow_le_pow_right hx (by omega)
    exact_mod_cast Nat.mul_le_mul (by omega) this

theorem arctanSum_le (x n : Nat) (hx : 2 ≤ x) :
    ((arctanSum x (2 * n) : Rat) : ℝ) ≤ Real.arctan ((x : ℝ)⁻¹) := by
  have h := arctanSum_tendsto x hx
  simp only [arctanSum_cast] at h ⊢
  exact (arctanTerm_antitone x (by omega)).alternating_series_le_tendsto h n

theorem le_arctanSum (x n : Nat) (hx : 2 ≤ x) :
    Real.arctan ((x : ℝ)⁻¹) ≤ ((arctanSum x (2 * n + 1) : Rat) : ℝ) := by
  have h := arctanSum_tendsto x hx
  simp only [arctanSum_cast] at h ⊢
  exact (arctanTerm_antitone x (by omega)).tendsto_le_alternating_series h n

theorem pi_eq_machin : Real.pi = 16 * Real.arctan ((5 : ℕ) : ℝ)⁻¹ - 4 * Real.arctan ((239 : ℕ) : ℝ)⁻¹ := by
  have h := Real.four_mul_arctan_inv_5_sub_arctan_inv_239
  push_cast
  linarith

theorem piLower_le (n : Nat) : ((piLower n : Rat) : ℝ) ≤ Real.pi := by
  have h5 := arctanSum_le 5 n (by omega)
  have h239 := le_arctanSum 239 n (by omega)
  have h3 := Real.pi_gt_three
  rw [piLower, Rat.cast_max]
  push_cast
  refine max_le h3.le ?_
  rw [pi_eq_machin]
  linarith

theorem le_piUpper (n : Nat) : Real.pi ≤ ((piUpper n : Rat) : ℝ) := by
  have h5 := le_arctanSum 5 n (by omega)
  have h239 := arctanSum_le 239 n (by omega)
  rw [piUpper, pi_eq_machin]
  push_cast at *
  linarith

theorem piLower_pos (n : Nat) : (0 : ℝ) < ((piLower n : Rat) : ℝ) := by
  rw [piLower, Rat.cast_max]
  exact lt_of_lt_of_le (by norm_num) (le_max_left _ _)

theorem two_mul_tendsto : Filter.Tendsto (fun n : ℕ => 2 * n) Filter.atTop Filter.atTop :=
  Filter.tendsto_atTop_mono (fun n => by show n ≤ _; omega) Filter.tendsto_id

theorem two_mul_add_one_tendsto : Filter.Tendsto (fun n : ℕ => 2 * n + 1) Filter.atTop Filter.atTop :=
  Filter.tendsto_atTop_mono (fun n => by show n ≤ _; omega) Filter.tendsto_id

theorem piLower_tendsto : Filter.Tendsto (fun n => ((piLower n : Rat) : ℝ)) Filter.atTop (nhds Real.pi) := by
  have h5 := (arctanSum_tendsto 5 (by omega)).comp two_mul_tendsto
  have h239 := (arctanSum_tendsto 239 (by omega)).comp two_mul_add_one_tendsto
  have h := ((h5.const_mul 16).sub (h239.const_mul 4))
  rw [← pi_eq_machin] at h
  have hm := (tendsto_const_nhds (x := (3 : ℝ)) (f := Filter.atTop)).max h
  rw [max_eq_right Real.pi_gt_three.le] at hm
  refine hm.congr fun n => ?_
  rw [piLower, Rat.cast_max]
  push_cast
  rfl

theorem piUpper_tendsto : Filter.Tendsto (fun n => ((piUpper n : Rat) : ℝ)) Filter.atTop (nhds Real.pi) := by
  have h5 := (arctanSum_tendsto 5 (by omega)).comp two_mul_add_one_tendsto
  have h239 := (arctanSum_tendsto 239 (by omega)).comp two_mul_tendsto
  have h := ((h5.const_mul 16).sub (h239.const_mul 4))
  rw [← pi_eq_machin] at h
  refine h.congr fun n => ?_
  rw [piUpper]
  push_cast
  rfl

end Sys2Proof.Machine
end

