-- ==== Sys2Proof/Machine/Operands.lean ====
section
/-! DEFINITION. The operand conversions (R130 to R139): hertz to a 28-bit frequency word in two 14-bit
halves, and radians to a 12-bit phase word; the range check (R133); and the operand words the commands
send. All arithmetic is exact (R8, R138). -/

namespace Sys2Proof.Machine

/-! ## Frequency -/

/-- R130: `v(F) = floor(F * 2^28 / REFCLK_HZ)`. -/
def freqQuotient (refclk F : Hertz) : Int :=
  match refclk, F with
  | .rat c, .rat q => ⌊q * 2 ^ 28 / c⌋
  | .rat _, .real _ | .real _, .rat _ | .real _, .real _ => Config.reals.quotient refclk F

/-- R131: `w32(F) = v(F) mod 2^32`. -/
def freqW32 (refclk F : Hertz) : BitVec 32 := BitVec.ofInt 32 (freqQuotient refclk F)

/-- R132: `lo(F)`, bits 13:0. -/
def freqLo (refclk F : Hertz) : Half := (freqW32 refclk F).extractLsb' 0 14

/-- R132: `hi(F)`, bits 27:14. -/
def freqHi (refclk F : Hertz) : Half := (freqW32 refclk F).extractLsb' 14 14

/-- R132: `FreqWord28(F)`. -/
def freqWord28 (refclk F : Hertz) : FreqWord := freqHi refclk F ++ freqLo refclk F

/-- R133: `F` lies in the caller's contract, `[0, REFCLK_HZ)`. -/
def inRange (refclk F : Hertz) : Bool := !F.lt (.rat 0) && F.lt refclk

/-! ## Phase -/

/-- `x(P) + 1/2` of R135 with `p` in the place of π: `P * 2048 / p`, where the part of the operand written
as a multiple of π needs no `p` (R137). -/
def phaseAt (a : AngleLit) (p : Rat) : Rat := a.rad * 2048 / p + 2048 * a.piMul + 1 / 2

/-- A lower bound of `x(P) + 1/2`. -/
def phaseLow (a : AngleLit) (n : Nat) : Rat := phaseAt a (if 0 ≤ a.rad then piUpper n else piLower n)

/-- An upper bound of `x(P) + 1/2`. -/
def phaseHigh (a : AngleLit) (n : Nat) : Rat := phaseAt a (if 0 ≤ a.rad then piLower n else piUpper n)

/-- The bounds of length `n` agree on `floor(x(P) + 1/2)`. -/
abbrev PhaseDecided (a : AngleLit) (n : Nat) : Prop := ⌊phaseLow a n⌋ = ⌊phaseHigh a n⌋

/-- `x(P) + 1/2` of R135, over the reals, for the angle `a`. It is no executable part of the model: it is
what `phaseIndex` is proved to be the floor of. -/
noncomputable def phaseReal (a : AngleLit) : ℝ := a.rad * 2048 / Real.pi + 2048 * a.piMul + 1 / 2

theorem phaseLow_le (a : AngleLit) (n : Nat) : ((phaseLow a n : Rat) : ℝ) ≤ phaseReal a := by
  have hl := piLower_pos n
  have hlp := piLower_le n
  have hpu := le_piUpper n
  have hp := Real.pi_pos
  rw [phaseLow, phaseReal, phaseAt]
  push_cast
  split
  · next h =>
    have h' : (0 : ℝ) ≤ a.rad * 2048 := mul_nonneg (by exact_mod_cast h) (by norm_num)
    gcongr
  · next h =>
    have h' : (a.rad : ℝ) * 2048 ≤ 0 :=
      mul_nonpos_of_nonpos_of_nonneg (by exact_mod_cast (not_le.1 h).le) (by norm_num)
    have := mul_le_mul_of_nonpos_left (one_div_le_one_div_of_le hl hlp) h'
    rw [mul_one_div, mul_one_div] at this
    linarith

theorem le_phaseHigh (a : AngleLit) (n : Nat) : phaseReal a ≤ ((phaseHigh a n : Rat) : ℝ) := by
  have hl := piLower_pos n
  have hlp := piLower_le n
  have hpu := le_piUpper n
  have hp := Real.pi_pos
  rw [phaseHigh, phaseReal, phaseAt]
  push_cast
  split
  · next h =>
    have h' : (0 : ℝ) ≤ a.rad * 2048 := mul_nonneg (by exact_mod_cast h) (by norm_num)
    gcongr
  · next h =>
    have h' : (a.rad : ℝ) * 2048 ≤ 0 :=
      mul_nonpos_of_nonpos_of_nonneg (by exact_mod_cast (not_le.1 h).le) (by norm_num)
    have := mul_le_mul_of_nonpos_left (one_div_le_one_div_of_le hp hpu) h'
    rw [mul_one_div, mul_one_div] at this
    linarith

theorem phaseAt_tendsto (a : AngleLit) (p : Nat → Rat)
    (hp : Filter.Tendsto (fun n => ((p n : Rat) : ℝ)) Filter.atTop (nhds Real.pi)) :
    Filter.Tendsto (fun n => ((phaseAt a (p n) : Rat) : ℝ)) Filter.atTop (nhds (phaseReal a)) := by
  have h := ((hp.inv₀ Real.pi_ne_zero).const_mul ((a.rad : ℝ) * 2048)).add_const
    (2048 * (a.piMul : ℝ)) |>.add_const (1 / 2 : ℝ)
  refine h.congr fun n => ?_
  rw [phaseAt]
  push_cast
  rw [div_eq_mul_inv (_ * _) ((p n : Rat) : ℝ)]

theorem phaseReal_irrational (a : AngleLit) (h : a.rad ≠ 0) : Irrational (phaseReal a) := by
  have h1 : Irrational ((a.rad * 2048 : Rat) / Real.pi : ℝ) :=
    irrational_pi.ratCast_div (by positivity)
  have h2 := (h1.add_ratCast (2048 * a.piMul)).add_ratCast (1 / 2)
  have e : ((a.rad * 2048 : Rat) / Real.pi : ℝ) + ((2048 * a.piMul : Rat) : ℝ) + ((1 / 2 : Rat) : ℝ) =
      phaseReal a := by
    rw [phaseReal]; push_cast; ring
  rwa [e] at h2

/-- Some length of the bounds of π decides every operand: an exact half-step is reached only by a multiple
of π, where the bounds are equal, and elsewhere `x(P) + 1/2` is irrational (R135, D20). -/
theorem phaseDecided_exists (a : AngleLit) : ∃ n, PhaseDecided a n := by
  by_cases h : a.rad = 0
  · exact ⟨0, by simp [PhaseDecided, phaseLow, phaseHigh, phaseAt, h]⟩
  · have hne : (⌊phaseReal a⌋ : ℝ) < phaseReal a :=
      lt_of_le_of_ne (Int.floor_le _) fun e => (phaseReal_irrational a h) ⟨⌊phaseReal a⌋, by simpa using e⟩
    have hlt : phaseReal a < (⌊phaseReal a⌋ : ℝ) + 1 := Int.lt_floor_add_one _
    have hlow : Filter.Tendsto (fun n => ((phaseLow a n : Rat) : ℝ)) Filter.atTop (nhds (phaseReal a)) := by
      by_cases h0 : 0 ≤ a.rad
      · simpa [phaseLow, h0] using phaseAt_tendsto a piUpper piUpper_tendsto
      · simpa [phaseLow, h0] using phaseAt_tendsto a piLower piLower_tendsto
    have hhigh : Filter.Tendsto (fun n => ((phaseHigh a n : Rat) : ℝ)) Filter.atTop (nhds (phaseReal a)) := by
      by_cases h0 : 0 ≤ a.rad
      · simpa [phaseHigh, h0] using phaseAt_tendsto a piLower piLower_tendsto
      · simpa [phaseHigh, h0] using phaseAt_tendsto a piUpper piUpper_tendsto
    obtain ⟨n, hn, hn'⟩ := ((hlow.eventually_const_lt hne).and (hhigh.eventually_lt_const hlt)).exists
    refine ⟨n, ?_⟩
    have e1 : ⌊phaseLow a n⌋ = ⌊phaseReal a⌋ := by
      rw [← Rat.floor_cast (α := ℝ), Int.floor_eq_iff]
      exact ⟨hn.le, lt_of_le_of_lt (phaseLow_le a n) hlt⟩
    have e2 : ⌊phaseHigh a n⌋ = ⌊phaseReal a⌋ := by
      rw [← Rat.floor_cast (α := ℝ), Int.floor_eq_iff]
      exact ⟨(Int.floor_le _).trans (le_phaseHigh a n), hn'⟩
    rw [PhaseDecided, e1, e2]

/-- A length of the bounds of π that decides the operand: a short one, a long one, else the first one. -/
def phaseLength (a : AngleLit) : Nat :=
  if PhaseDecided a 4 then 4 else if PhaseDecided a 32 then 32 else Nat.find (phaseDecided_exists a)

/-- R135: `floor(x(P) + 1/2)`. -/
def phaseIndex : Angle → Int
  | .lit a => ⌊phaseLow a (phaseLength a)⌋
  | .real n => Config.reals.phase n

/-- R135: `PhaseWord(P) = floor(x(P) + 1/2) mod 4096`. -/
def phaseWord (a : Angle) : PhaseWord := BitVec.ofInt 12 (phaseIndex a)

/-! ## The operand words (R139) -/

/-- R160 and R193: the two frequency words for FREQr, low half first (R64). -/
def freqEmits (refclk : Hertz) (r : Reg) (F : Hertz) : List MicroOp :=
  [.emit (freqWordTagged r (freqLo refclk F)), .emit (freqWordTagged r (freqHi refclk F))]

/-- R161 and R193: the phase word for PHASEr. -/
def phaseEmit (r : Reg) (P : Angle) : MicroOp := .emit (phaseWordTagged r (phaseWord P))

end Sys2Proof.Machine
end

