-- ==== Sys2Proof/Machine/Receiver.lean ====
section
/-! DEFINITION. The receiver view: what the device holds after a word has completed with `Ok` (R43 to R45)
or with an error (R46), and the output observation (R47). -/

namespace Sys2Proof.Machine

/-- FREQr of the receiver view. -/
def Rx.freq (rx : Rx) : Reg → Known FreqWord
  | .r0 => rx.freq0
  | .r1 => rx.freq1

/-- PHASEr of the receiver view. -/
def Rx.phase (rx : Rx) : Reg → Known PhaseWord
  | .r0 => rx.phase0
  | .r1 => rx.phase1

/-- FREQr becomes `v`. -/
def Rx.setFreq (rx : Rx) (r : Reg) (v : Known FreqWord) : Rx :=
  match r with
  | .r0 => { rx with freq0 := v }
  | .r1 => { rx with freq1 := v }

/-- PHASEr becomes `v`. -/
def Rx.setPhase (rx : Rx) (r : Reg) (v : Known PhaseWord) : Rx :=
  match r with
  | .r0 => { rx with phase0 := v }
  | .r1 => { rx with phase1 := v }

/-- R44: the device's last control word is known and has B28 = 1. -/
def Rx.loadMode (rx : Rx) : Bool :=
  match rx.ctrl with
  | .known c => getFlag c .b28
  | .unknown => false

/-- R43: the device latches a control word, and a fresh low/high pairing starts. -/
def Rx.latchCtrl (rx : Rx) (w : Word) : Rx := { rx with ctrl := .known w, pend := .none }

/-- R44: the device takes a frequency half for FREQr. -/
def Rx.latchFreq (rx : Rx) (r : Reg) (d : Half) : Rx :=
  if rx.loadMode then
    match rx.pend with
    | .none => { rx with pend := .lo r d }
    | .lo r' d' =>
      if r' = r then { rx.setFreq r (.known (d ++ d')) with pend := .none }
      else { rx with freq0 := .unknown, freq1 := .unknown, pend := .unknown }
    | .unknown => { rx.setFreq r .unknown with pend := .unknown }
  else { rx.setFreq r .unknown with pend := .unknown }

/-- R45: the device latches a phase word into PHASEr. -/
def Rx.latchPhase (rx : Rx) (r : Reg) (d : PhaseWord) : Rx := rx.setPhase r (.known d)

/-- R46: a control word failed. -/
def Rx.loseCtrl (rx : Rx) : Rx := { rx with ctrl := .unknown, pend := .unknown }

/-- R46: a frequency word to FREQr failed. -/
def Rx.loseFreq (rx : Rx) (r : Reg) : Rx := { rx.setFreq r .unknown with pend := .unknown }

/-- R46: a phase word to PHASEr failed. -/
def Rx.losePhase (rx : Rx) (r : Reg) : Rx := rx.setPhase r .unknown

/-- R43 to R45 by the target of the word (R61). A command is no wire word and changes nothing. -/
def Rx.latch (rx : Rx) : Instr → Rx
  | .ctrlWrite c => rx.latchCtrl (packCtrl c)
  | .freq0Write d => rx.latchFreq .r0 d
  | .freq1Write d => rx.latchFreq .r1 d
  | .phase0Write _ d => rx.latchPhase .r0 d
  | .phase1Write _ d => rx.latchPhase .r1 d
  | .init | .setbit _ _ | .flush | .setfreq _ | .setphase _ | .selfreq _ | .selphase _
  | .setwave _ | .rstassert | .rstrelease | .apply _ _ => rx

/-- R46 by the target of the word (R61). -/
def Rx.lose (rx : Rx) : Instr → Rx
  | .ctrlWrite _ => rx.loseCtrl
  | .freq0Write _ => rx.loseFreq .r0
  | .freq1Write _ => rx.loseFreq .r1
  | .phase0Write _ _ => rx.losePhase .r0
  | .phase1Write _ _ => rx.losePhase .r1
  | .init | .setbit _ _ | .flush | .setfreq _ | .setphase _ | .selfreq _ | .selphase _
  | .setwave _ | .rstassert | .rstrelease | .apply _ _ => rx

/-- The receiver view after one completed transmit. -/
def Rx.after (rx : Rx) (e : Sent) : Rx :=
  match e.result with
  | .ok => rx.latch (decodeWire e.word)
  | .err _ => rx.lose (decodeWire e.word)

/-- R47: the register index a select bit names (R24). -/
def Rx.selected (c : Word) (f : Field) : Reg := regOfBit (getFlag c f)

/-- R47: the output observation. -/
def Rx.out (rx : Rx) : Out :=
  match rx.ctrl with
  | .unknown => .unknown
  | .known c =>
    if getFlag c .reset then .forced
    else .running (rx.freq (Rx.selected c .fsel)) (rx.phase (Rx.selected c .psel))
      (getFlag c .mode) (getFlag c .opbiten) (getFlag c .div2)

end Sys2Proof.Machine
end

