-- ==== Sys2Proof/Machine/Ops.lean ====
section
/-! DEFINITION. The shared operations: the micro-operation engine (R190, R191), the accept step (R191), the
transmit-completion step (R192), the two ways a command ends early, which are this block's exceptions
(R221, R223, R226), and what the next step takes from the ports (R33). -/

namespace Sys2Proof.Machine

/-- What a step answers. -/
abbrev Result := Host.Outcome State Fault Refusal

/-- The state a micro-operation enters (R190). -/
def FsmTarget.toFsm : FsmTarget → Fsm
  | .idle => .idle
  | .reconf => .reconf

/-! ## The micro-operation engine -/

/-- R191: the command is complete. -/
def State.complete (s : State) : State :=
  { s with uprog := [], busy := false, wcount := 0, resp := .ok }

/-- R191: `w` is presented to the transport and the block waits; `ops` is what is left of the program, its
head the emit of `w`. -/
def State.present (s : State) (w : Word) (ops : List MicroOp) : State :=
  { s with uprog := ops, txWord := w, txReq := true }

/-- R191, `RunInternal`, on what is left of the program: SET, LOAD and FSM run until an emit is at the head
or the program is at its end. -/
def runInternal (s : State) : List MicroOp → State
  | [] => s.complete
  | .set f b :: ops => runInternal { s with ctrl := setFlag s.ctrl f b } ops
  | .load c :: ops => runInternal { s with ctrl := loadCtrl c } ops
  | .fsm t :: ops => runInternal { s with fsm := t.toFsm } ops
  | .emitCtrl :: ops => s.present (ctrlWord s.ctrl) (.emitCtrl :: ops)
  | .emit w :: ops => s.present w (.emit w :: ops)

/-! ## Errors: how a command ends early (R226) -/

/-- R223: a refused command has no effect but `resp`. -/
def State.refuse (s : State) (r : RefuseReason) : State := { s with resp := .refused r }

/-- R192 and R221: word number `wcount + 1` of the command, `w`, failed with `e`: the rest of the program is
discarded, nothing before it is undone, and `busy` falls. There is no return from an error (R227): the next
command starts afresh. -/
def State.abort (s : State) (w : Word) (e : TransportError) : State :=
  { s with resp := .transportError (s.wcount + 1) w e, uprog := [], wcount := 0, busy := false }

/-! ## The accept step (R191) -/

/-- The command on the port is taken. -/
def State.take (s : State) (rest : List Command) : State := { s with cmds := rest }

/-- R191: an accepted command's program is installed and run up to its first emit. -/
def State.start (s : State) (prog : List MicroOp) : State :=
  runInternal { s with uprog := prog, wcount := 0, busy := true } prog

/-- R191 and R224: NOT_INITIALISED, for every command but INIT. -/
def checkInitialised (s : State) : Option RefuseReason :=
  if s.fsm = .uninit then some .notInitialised else none

/-- R191 and R224: NOT_INITIALISED, then FREQ_OUT_OF_RANGE, for SETFREQ and APPLY. -/
def checkFreq (s : State) (F : Hertz) : Option RefuseReason :=
  if s.fsm = .uninit then some .notInitialised
  else if s.params.freqOutOfRange = .refuse ∧ inRange s.params.refclk F = false then some .freqOutOfRange
  else none

/-- R191: the accept step of a command whose header has decoded: `check` is the refusal its opcode can
meet, `prog` its micro-program, both read from the command presented. A command presented while `busy` is
not taken, and where none is presented nothing happens. -/
def accept (s : State) (check : Command → Option RefuseReason) (prog : Command → List MicroOp) : Result :=
  if s.busy then .next s
  else
    match s.cmds with
    | [] => .next s
    | c :: rest =>
      match check c with
      | some r => .next ((s.take rest).refuse r)
      | none => .next ((s.take rest).start (prog c))

/-! ## The transmit-completion step (R192) -/

/-- The transmit of `w` has completed: the request is over, and the result is on the record. -/
def State.sent (s : State) (w : Word) (res : TxResult) (rest : List TxResult) (rx : Rx) : State :=
  { s with txReq := false, answers := rest, rx := rx, log := s.log ++ [⟨w, res⟩] }

/-- R192: the completion step for the word `w`, with `latched` what the device holds if the transport says
`Ok` (R43 to R45) and `lost` if it says `Err` (R46). It is enabled when a word is in flight and the
transport has answered. -/
def transmit (s : State) (w : Word) (latched lost : Rx) : Result :=
  if s.busy && s.txReq then
    match s.answers with
    | [] => .next s
    | .ok :: rest => .next (runInternal { s.sent w .ok rest latched with wcount := s.wcount + 1 } s.uprog.tail)
    | .err e :: rest => .next ((s.sent w (.err e) rest lost).abort w e)
  else .next s

/-! ## What the next step takes from the ports -/

/-- The event of the next step (R5): none, a refused header, or an instruction to run. -/
inductive Event where
  | wait
  | refuse (r : RefuseReason) (rest : List Command)
  | run (i : Instr)
  deriving DecidableEq, Repr

/-- R5, R191, R192: while `busy` the block waits for the transport's result of the word in flight; else it
takes the command presented, whose header is decoded (R85). -/
def State.event (s : State) : Event :=
  if s.busy then
    if s.txReq then
      match s.answers with
      | [] => .wait
      | _ :: _ => .run (decodeWire s.txWord)
    else .wait
  else
    match s.cmds with
    | [] => .wait
    | c :: rest =>
      match decodeHeader c.hdr with
      | .cmd i => .run i
      | .refused r => .refuse r rest

/-- A command with the header `h` and both slots 0 is the one the next step accepts. -/
def State.presentCommand (s : State) (h : Word) : State :=
  { s with cmds := ⟨h, .rat 0, .ofRad 0⟩ :: s.cmds, busy := false, txReq := false, uprog := [], wcount := 0 }

/-- The word `w` is in flight and the next step is its completion; the transport answers as it was going to,
and `Ok` where it had no answer yet. -/
def State.presentWord (s : State) (w : Word) : State :=
  { s with busy := true, txReq := true, txWord := w, uprog := [.emit w], wcount := 0,
           answers := if s.answers = [] then [.ok] else s.answers }

/-- The word `w` is placed where the next step takes its instruction from (log entry 7). -/
def State.place (s : State) (w : Word) : State :=
  match decodeHeader w with
  | .cmd _ => s.presentCommand w
  | .refused _ => s.presentWord w

/-! ## Reading the state -/

/-- R33: `cmd_ready = not busy`. -/
def State.cmdReady (s : State) : Bool := !s.busy

/-- R33: `cmd_valid`. -/
def State.cmdValid (s : State) : Bool := !s.cmds.isEmpty

/-- R199: quiescent. -/
def State.quiescent (s : State) : Bool := !s.busy

/-- R31 and R33: what the status port presents, read-only. -/
structure Status where
  ctrl : Word
  fsm  : Fsm
  busy : Bool
  resp : Resp
  deriving DecidableEq, Repr

/-- R31: reading the status port has no side effect. -/
def State.status (s : State) : Status := ⟨s.ctrl, s.fsm, s.busy, s.resp⟩

/-- R220: the numeric code of a result. -/
def Resp.code : Resp → Nat
  | .none => 0
  | .ok => 1
  | .transportError _ _ _ => 2
  | .refused _ => 3

/-- R220: the numeric code of a refusal's reason. -/
def reasonCode : RefuseReason → Nat
  | .reservedOpcode => 1
  | .nonzeroUnusedField => 2
  | .reservedFlag => 3
  | .notInitialised => 4
  | .freqOutOfRange => 5

/-- The completed word is a control word that the device received (R25). -/
def Sent.isCtrl (e : Sent) : Bool :=
  e.result == .ok && (e.word.extractLsb' 14 2 == 0b00#2)

/-- R25: the last control word whose transmit completed with `Ok`, if there is one. -/
def State.lastCtrlSent (s : State) : Option Word := ((s.log.filter Sent.isCtrl).getLast?).map Sent.word

/-- R25: the cache is stale. -/
def State.stale (s : State) : Bool := s.lastCtrlSent != some (ctrlWord s.ctrl)

/-- The words the transport carried with `Ok`, in order (R233). -/
def State.words (s : State) : List Word := (s.log.filter fun e => e.result == .ok).map Sent.word

end Sys2Proof.Machine
end

