-- ==== Sys2Proof/Machine/ConfigOps.lean ====
section
/-! DEFINITION. The Configuration Engine's single operations (file 42). -/

namespace Sys2Proof.Machine

/-- R160: `[ SET(B28, 1), EMIT_CTRL, EMIT low half, EMIT high half ]`. -/
def execSetfreq (r : Reg) (s : State) : Result :=
  accept s (fun c => checkFreq s c.F) fun c =>
    [.set .b28 true, .emitCtrl] ++ freqEmits s.params.refclk r c.F

/-- R161: `[ EMIT phase word ]`. -/
def execSetphase (r : Reg) (s : State) : Result :=
  accept s (fun _ => checkInitialised s) fun c => [phaseEmit r c.P]

/-- R162: `[ SET(FSEL, r), EMIT_CTRL ]`. -/
def execSelfreq (r : Reg) (s : State) : Result :=
  accept s (fun _ => checkInitialised s) fun _ => [.set .fsel r.bit, .emitCtrl]

/-- R163: `[ SET(PSEL, r), EMIT_CTRL ]`. -/
def execSelphase (r : Reg) (s : State) : Result :=
  accept s (fun _ => checkInitialised s) fun _ => [.set .psel r.bit, .emitCtrl]

/-- R164: the waveform's flag writes, then `EMIT_CTRL`. -/
def execSetwave (w : Wave) (s : State) : Result :=
  accept s (fun _ => checkInitialised s) fun _ => waveSets w ++ [.emitCtrl]

/-- R165: `[ SET(RESET, 1), EMIT_CTRL ]`. -/
def execRstassert (s : State) : Result :=
  accept s (fun _ => checkInitialised s) fun _ => [.set .reset true, .emitCtrl]

/-- R166: `[ SET(RESET, 0), EMIT_CTRL ]`. -/
def execRstrelease (s : State) : Result :=
  accept s (fun _ => checkInitialised s) fun _ => [.set .reset false, .emitCtrl]

end Sys2Proof.Machine
end

