-- ==== Sys2Proof/Machine/RegisterModel.lean ====
section
/-! DEFINITION. The Register Model commands, SETBIT and FLUSH (file 40). -/

namespace Sys2Proof.Machine

/-- R110: `[ SET(Field(B), V) ]`. -/
def execSetbit (f : Field) (v : Bool) (s : State) : Result :=
  accept s (fun _ => checkInitialised s) fun _ => [.set f v]

/-- R111: `[ EMIT_CTRL ]`. -/
def execFlush (s : State) : Result :=
  accept s (fun _ => checkInitialised s) fun _ => [.emitCtrl]

end Sys2Proof.Machine
end

