-- ==== Sys2Proof/Machine/Sequencer.lean ====
section
/-! DEFINITION. The composite sequences, APPLY and INIT (file 43). -/

namespace Sys2Proof.Machine

/-- R193: the seven-word program of APPLY for the pair `r`, the frequency `F`, the phase `P` and the waveform
`w`, with the single combined flush of R194. -/
def applyProgram (refclk : Hertz) (r : Reg) (F : Hertz) (P : Angle) (w : Wave) : List MicroOp :=
  [.fsm .reconf,
   .set .reset true, .emitCtrl,
   .set .fsel r.bit, .set .psel r.bit,
   .set .b28 true, .emitCtrl] ++
  freqEmits refclk r F ++
  [phaseEmit r P] ++
  waveSets w ++ [.emitCtrl,
   .set .reset false, .emitCtrl,
   .fsm .idle]

/-- R195: `LOAD(CTRL_INIT)`, then APPLY's program with the startup configuration. -/
def initProgram (p : Params) : List MicroOp :=
  .load p.ctrlInit :: applyProgram p.refclk p.initPair p.initFreq p.initPhase p.initWave

/-- R193. -/
def execApply (r : Reg) (w : Wave) (s : State) : Result :=
  accept s (fun c => checkFreq s c.F) fun c => applyProgram s.params.refclk r c.F c.P w

/-- R195: INIT is accepted in every state of `fsm` and never refused for range. -/
def execInit (s : State) : Result :=
  accept s (fun _ => none) fun _ => initProgram s.params

end Sys2Proof.Machine
end

