-- ==== Sys2Proof/Machine/Wire.lean ====
section
/-! DEFINITION. The wire words (R60, R61, R88 to R91): the transmit of a word completes (R192), and the
device latches it or its target is lost (R43 to R46). -/

namespace Sys2Proof.Machine

/-- R88 and R43: a control word. -/
def execCtrlWrite (c : BitVec 14) (s : State) : Result :=
  transmit s (packCtrl c) (s.rx.latchCtrl (packCtrl c)) s.rx.loseCtrl

/-- R89 and R44: a half for FREQ0. -/
def execFreq0Write (d : Half) (s : State) : Result :=
  transmit s (freqWordTagged .r0 d) (s.rx.latchFreq .r0 d) (s.rx.loseFreq .r0)

/-- R89 and R44: a half for FREQ1. -/
def execFreq1Write (d : Half) (s : State) : Result :=
  transmit s (freqWordTagged .r1 d) (s.rx.latchFreq .r1 d) (s.rx.loseFreq .r1)

/-- R90 and R45: a phase word for PHASE0; the device ignores bit 12 (R91). -/
def execPhase0Write (z : Bool) (d : PhaseWord) (s : State) : Result :=
  transmit s (packPhase .r0 z d) (s.rx.latchPhase .r0 d) (s.rx.losePhase .r0)

/-- R90 and R45: a phase word for PHASE1; the device ignores bit 12 (R91). -/
def execPhase1Write (z : Bool) (d : PhaseWord) (s : State) : Result :=
  transmit s (packPhase .r1 z d) (s.rx.latchPhase .r1 d) (s.rx.losePhase .r1)

end Sys2Proof.Machine
end

