-- ==== Sys2Proof/Machine/Dispatch.lean ====
section
/-! DEFINITION. exec: one arm per constructor of Instr, each one direct call of its meaning. -/

namespace Sys2Proof.Machine

def exec (i : Instr) (s : State) : Host.Outcome State Fault Refusal :=
  match i with
  | .init => Sys2Proof.Machine.execInit s
  | .setbit f v => Sys2Proof.Machine.execSetbit f v s
  | .flush => Sys2Proof.Machine.execFlush s
  | .setfreq r => Sys2Proof.Machine.execSetfreq r s
  | .setphase r => Sys2Proof.Machine.execSetphase r s
  | .selfreq r => Sys2Proof.Machine.execSelfreq r s
  | .selphase r => Sys2Proof.Machine.execSelphase r s
  | .setwave w => Sys2Proof.Machine.execSetwave w s
  | .rstassert => Sys2Proof.Machine.execRstassert s
  | .rstrelease => Sys2Proof.Machine.execRstrelease s
  | .apply r w => Sys2Proof.Machine.execApply r w s
  | .ctrlWrite c => Sys2Proof.Machine.execCtrlWrite c s
  | .freq0Write d => Sys2Proof.Machine.execFreq0Write d s
  | .freq1Write d => Sys2Proof.Machine.execFreq1Write d s
  | .phase0Write z d => Sys2Proof.Machine.execPhase0Write z d s
  | .phase1Write z d => Sys2Proof.Machine.execPhase1Write z d s

end Sys2Proof.Machine
end

