-- ==== Sys2Proof/Machine/Step.lean ====
section
/-! DEFINITION. One step of the machine (R5): the acceptance of one command, or the completion of one
transmit. Where no event is enabled the block waits (R199): the state stays as it is. -/

namespace Sys2Proof.Machine

/-- One step. A command or a wire word runs through `exec`; a header that does not decode is refused (R86,
R223). -/
def step (s : State) : Host.Outcome State Fault Refusal :=
  match s.event with
  | .wait => .next s
  | .refuse r rest => .next ((s.take rest).refuse r)
  | .run i => exec i s

/-- The state `s` in which the next step runs the word `w` of the opcode table: on the command port if it
is a command header, else in flight on the transport port (log entry 7). Every row of the table has one
16-bit word, so the bits above 15 are none. -/
def State.withFetchWord (s : State) (_nbits w : Nat) : State := s.place (BitVec.ofNat 16 w)

end Sys2Proof.Machine
end

