-- ==== Sys2Proof/Machine/Asm.lean ====
section
/-! DEFINITION. The assembler notation of R94 to R96: lines of text, the exact literals of R95, the two
pseudo-instructions of R96, and the command each line stands for (header and operand slots). It is the
caller's side of the command port; no step uses it. -/

namespace Sys2Proof.Machine

/-- A line of R94 with its operands read. -/
inductive AsmLine where
  | init
  | setbit (f : Field) (v : Bool)
  | flush
  | setfreq (r : Reg) (hz : Hertz)
  | setphase (r : Reg) (rad : Angle)
  | selfreq (r : Reg)
  | selphase (r : Reg)
  | setwave (w : Wave)
  | rstassert
  | rstrelease
  | apply (r : Reg) (hz : Hertz) (rad : Angle) (w : Wave)
  /-- Pseudo-instruction, R96. -/
  | apply0 (hz : Hertz) (rad : Angle) (w : Wave)
  /-- Pseudo-instruction, R96. -/
  | apply1 (hz : Hertz) (rad : Angle) (w : Wave)
  deriving DecidableEq, Repr

/-- R96: APPLY0 and APPLY1 expand to APPLY with the pair 0 and 1; every other line stands for itself. -/
def AsmLine.expand : AsmLine → AsmLine
  | .apply0 hz rad w => .apply .r0 hz rad w
  | .apply1 hz rad w => .apply .r1 hz rad w
  | l => l

/-- R94: the instruction of a line. -/
def AsmLine.instr : AsmLine → Instr
  | .init => .init
  | .setbit f v => .setbit f v
  | .flush => .flush
  | .setfreq r _ => .setfreq r
  | .setphase r _ => .setphase r
  | .selfreq r => .selfreq r
  | .selphase r => .selphase r
  | .setwave w => .setwave w
  | .rstassert => .rstassert
  | .rstrelease => .rstrelease
  | .apply r _ _ w => .apply r w
  | .apply0 _ _ w => .apply .r0 w
  | .apply1 _ _ w => .apply .r1 w

/-- R94: `<hz>` goes into `F`; a line without one leaves the slot 0. -/
def AsmLine.slotF : AsmLine → Hertz
  | .setfreq _ hz | .apply _ hz _ _ | .apply0 hz _ _ | .apply1 hz _ _ => hz
  | _ => .rat 0

/-- R94: `<rad>` goes into `P`; a line without one leaves the slot 0. -/
def AsmLine.slotP : AsmLine → Angle
  | .setphase _ rad | .apply _ _ rad _ | .apply0 _ rad _ | .apply1 _ rad _ => rad
  | _ => .ofRad 0

/-- R94: the command of a line: the header of R80 and the two slots. -/
def assemble (l : AsmLine) : Command := ⟨encode l.instr, l.slotF, l.slotP⟩

/-! ## Literals (R95) -/

/-- The value of a decimal digit. -/
def digitValue (c : Char) : Option Nat :=
  if '0' ≤ c ∧ c ≤ '9' then some (c.toNat - '0'.toNat) else none

/-- The digits at the head of a text: their value, how many they are, and the rest. -/
def takeDigits : List Char → Nat → Nat → Nat × Nat × List Char
  | [], v, n => (v, n, [])
  | c :: cs, v, n =>
    match digitValue c with
    | some d => takeDigits cs (10 * v + d) (n + 1)
    | none => (v, n, c :: cs)

/-- An optional sign: whether it is a minus, and the rest. -/
def takeSign : List Char → Bool × List Char
  | '-' :: cs => (true, cs)
  | '+' :: cs => (false, cs)
  | cs => (false, cs)

/-- An optional fraction after the integer digits `v`: the value so far and the rest. -/
def takeFraction (v : Nat) : List Char → Option (Rat × List Char)
  | '.' :: cs =>
    match takeDigits cs v 0 with
    | (_, 0, _) => none
    | (v', n, rest) => some ((v' : Rat) / 10 ^ n, rest)
  | cs => some ((v : Rat), cs)

/-- An optional exponent to the end of the literal, applied to `q`: `e` or `E`, an optional sign and at least one
decimal digit, for a factor that is that power of ten. R95 says "optional exponent" and no more: DESIGN CHOICE, log
entry 13. -/
def applyExponent (q : Rat) (cs : List Char) : Option Rat :=
  let scaled (rest : List Char) : Option Rat :=
    match takeSign rest with
    | (neg, ds) =>
      match takeDigits ds 0 0 with
      | (_, 0, _) => none
      | (e, _, []) => some (if neg then q / 10 ^ e else q * 10 ^ e)
      | (_, _, _ :: _) => none
  match cs with
  | [] => some q
  | 'e' :: rest => scaled rest
  | 'E' :: rest => scaled rest
  | _ :: _ => none

/-- R95: a decimal real: optional sign, digits, optional fraction, optional exponent. -/
def parseDecimal (cs : List Char) : Option Rat :=
  match takeSign cs with
  | (neg, ds) =>
    match takeDigits ds 0 0 with
    | (_, 0, _) => none
    | (v, _, rest) =>
      match takeFraction v rest with
      | none => none
      | some (q, rest') => applyExponent (if neg then -q else q) rest'

/-- R95: `<hz>`. -/
def parseHertz (cs : List Char) : Option Hertz := (parseDecimal cs).map Hertz.rat

/-- R95: `pi`, or `pi/n` with n a positive integer; the factor of π. -/
def parsePiFactor : List Char → Option Rat
  | ['p', 'i'] => some 1
  | 'p' :: 'i' :: '/' :: ds =>
    match takeDigits ds 0 0 with
    | (0, _, _) => none
    | (n, _, []) => some (1 / (n : Rat))
    | (_, _, _ :: _) => none
  | _ => none

/-- The text before the first `sep`, and the text after it if there is one. -/
def splitAtChar (sep : Char) : List Char → List Char × Option (List Char)
  | [] => ([], none)
  | c :: cs =>
    if c = sep then ([], some cs)
    else
      match splitAtChar sep cs with
      | (a, b) => (c :: a, b)

/-- R95: `<rad>`: a decimal real, or `q*pi`, or `q*pi/n`. -/
def parseAngle (cs : List Char) : Option Angle :=
  match splitAtChar '*' cs with
  | (a, none) => (parseDecimal a).map Angle.ofRad
  | (a, some b) =>
    match parseDecimal a, parsePiFactor b with
    | some q, some f => some (Angle.ofPi (q * f))
    | _, _ => none

/-! ## Lines (R94) -/

/-- R94: `<r>`. -/
def parseReg : List Char → Option Reg
  | ['0'] => some .r0
  | ['1'] => some .r1
  | _ => none

/-- R94: `<0|1>`. -/
def parseBit : List Char → Option Bool
  | ['0'] => some false
  | ['1'] => some true
  | _ => none

/-- R94: `<flag>`. -/
def parseField (cs : List Char) : Option Field :=
  if cs = "RESET".toList then some .reset
  else if cs = "MODE".toList then some .mode
  else if cs = "OPBITEN".toList then some .opbiten
  else if cs = "FSEL".toList then some .fsel
  else if cs = "PSEL".toList then some .psel
  else if cs = "DIV2".toList then some .div2
  else if cs = "SLEEP1".toList then some .sleep1
  else if cs = "SLEEP12".toList then some .sleep12
  else if cs = "B28".toList then some .b28
  else none

/-- R94: `<shape>`. -/
def parseWave (cs : List Char) : Option Wave :=
  if cs = "SINE".toList then some .sine
  else if cs = "TRIANGLE".toList then some .triangle
  else if cs = "SQUARE".toList then some .square
  else if cs = "SQUAREHALF".toList then some .squareHalf
  else none

/-- A blank or a tab. -/
def isBlank (c : Char) : Bool := c = ' ' || c = '\t'

/-- The text without its outer blanks. -/
def trimBlanks (cs : List Char) : List Char :=
  ((cs.dropWhile isBlank).reverse.dropWhile isBlank).reverse

/-- The text cut at its commas, each part trimmed. -/
def splitCommas : List Char → List Char → List (List Char)
  | acc, [] => [trimBlanks acc.reverse]
  | acc, c :: cs => if c = ',' then trimBlanks acc.reverse :: splitCommas [] cs else splitCommas (c :: acc) cs

/-- The operands after a mnemonic: none where nothing stands there. -/
def operandsOf (cs : List Char) : List (List Char) :=
  match trimBlanks cs with
  | [] => []
  | t => splitCommas [] t

/-- R94: the line of a mnemonic and its operands. -/
def parseOperands (m : List Char) (ops : List (List Char)) : Option AsmLine :=
  match ops with
  | [] =>
    if m = "INIT".toList then some .init
    else if m = "FLUSH".toList then some .flush
    else if m = "RSTASSERT".toList then some .rstassert
    else if m = "RSTRELEASE".toList then some .rstrelease
    else none
  | [a] =>
    if m = "SELFREQ".toList then (parseReg a).map .selfreq
    else if m = "SELPHASE".toList then (parseReg a).map .selphase
    else if m = "SETWAVE".toList then (parseWave a).map .setwave
    else none
  | [a, b] =>
    if m = "SETBIT".toList then (parseField a).bind fun f => (parseBit b).map (.setbit f)
    else if m = "SETFREQ".toList then (parseReg a).bind fun r => (parseHertz b).map (.setfreq r)
    else if m = "SETPHASE".toList then (parseReg a).bind fun r => (parseAngle b).map (.setphase r)
    else none
  | [a, b, c] =>
    (parseHertz a).bind fun hz => (parseAngle b).bind fun rad => (parseWave c).bind fun w =>
      if m = "APPLY0".toList then some (.apply0 hz rad w)
      else if m = "APPLY1".toList then some (.apply1 hz rad w)
      else none
  | [a, b, c, d] =>
    if m = "APPLY".toList then
      (parseReg a).bind fun r => (parseHertz b).bind fun hz => (parseAngle c).bind fun rad =>
        (parseWave d).map (.apply r hz rad)
    else none
  | _ => none

/-- What a line of text is: empty (blank, or a comment only), a command, or neither. -/
inductive ParsedLine where
  | empty
  | line (l : AsmLine)
  | bad
  deriving DecidableEq, Repr

/-- R94: one command a line; `;` to the end of the line is a comment. -/
def parseLine (text : List Char) : ParsedLine :=
  match trimBlanks (splitAtChar ';' text).1 with
  | [] => .empty
  | t =>
    match parseOperands (t.takeWhile fun c => !isBlank c) (operandsOf (t.dropWhile fun c => !isBlank c)) with
    | some l => .line l
    | none => .bad

/-- The commands of a program's lines, in order; none where a line is no command. -/
def assembleLines : List (List Char) → Option (List Command)
  | [] => some []
  | t :: ts =>
    match parseLine t, assembleLines ts with
    | .empty, some cs => some cs
    | .line l, some cs => some (assemble l :: cs)
    | _, _ => none

end Sys2Proof.Machine
end

