-- ==== Sys2Proof/Safety.lean ====
section
/-! DEFINITION. What claims are stated in: the invariant of the block, what the device holds as a replay of
the words it was sent, the order the words of a frequency value must keep (R253), and the real-valued
formulas of R130 and R135 that the conversions compute. Nothing here is read by a step. -/

namespace Sys2Proof.Machine

/-! ## Words in order (R253) -/

/-- What the last word on the transport allows next: nothing in particular, the low half of a frequency
(a control word with B28 = 1 went just before), or only the high half for the same register. -/
inductive WordOrder where
  | free
  | armed
  | low (r : Reg)
  deriving DecidableEq, Repr

/-- R253: where a frequency half for FREQr leads, and `none` where it must not stand. -/
def WordOrder.freq (q : WordOrder) (r : Reg) : Option WordOrder :=
  match q with
  | .free => none
  | .armed => some (.low r)
  | .low r' => if r' = r then some .free else none

/-- R253: where a completed word leads, `none` where it must not stand. A control word or a phase word must
not part the two halves; a failed word ends its command, so anything may follow it. -/
def WordOrder.word (q : WordOrder) (i : Instr) (res : TxResult) : Option WordOrder :=
  match i with
  | .ctrlWrite c =>
    match q with
    | .low _ => none
    | .free | .armed => some (if res = .ok ∧ getFlag (packCtrl c) .b28 then .armed else .free)
  | .freq0Write _ => if res = .ok then q.freq .r0 else (q.freq .r0).map fun _ => .free
  | .freq1Write _ => if res = .ok then q.freq .r1 else (q.freq .r1).map fun _ => .free
  | .phase0Write _ _ | .phase1Write _ _ =>
    match q with
    | .low _ => none
    | .free | .armed => some .free
  | .init | .setbit _ _ | .flush | .setfreq _ | .setphase _ | .selfreq _ | .selphase _
  | .setwave _ | .rstassert | .rstrelease | .apply _ _ => none

/-- R253 over the words the transport has carried: where they lead, `none` if one stood where it must not. -/
def wordOrder : Option WordOrder → List Sent → Option WordOrder
  | q, [] => q
  | none, _ :: _ => none
  | some q, e :: es => wordOrder (q.word (decodeWire e.word) e.result) es

/-- R253 over what is left of a program, with every word answered `Ok`: no word stands where it must not,
and the program does not end between two halves. -/
def keepsOrder : WordOrder → Word → List MicroOp → Bool
  | .low _, _, [] => false
  | _, _, [] => true
  | q, c, .set f b :: ops => keepsOrder q (setFlag c f b) ops
  | q, _, .load x :: ops => keepsOrder q (loadCtrl x) ops
  | q, c, .fsm _ :: ops => keepsOrder q c ops
  | q, c, .emitCtrl :: ops =>
    match q.word (decodeWire (ctrlWord c)) .ok with
    | some q' => keepsOrder q' c ops
    | none => false
  | q, c, .emit w :: ops =>
    match q.word (decodeWire w) .ok with
    | some q' => keepsOrder q' c ops
    | none => false

/-! ## The invariant -/

/-- What may stand in `uprog` between two steps: no LOAD and no FSM(RECONF), which run in the accept step;
no SET of a sleep bit, which only SETBIT makes (R22) in its accept step; and an EMIT only of a frequency or
phase word (R190), with bit 12 of a phase word 0 (R90). -/
def waitingOp : MicroOp → Bool
  | .set .sleep1 _ => false
  | .set .sleep12 _ => false
  | .set _ _ => true
  | .load _ => false
  | .fsm .reconf => false
  | .fsm .idle => true
  | .emitCtrl => true
  | .emit w => (decodeWire w).wf && (w.extractLsb' 14 2 != 0b00#2)

/-- A waiting program is made of such operations, and FSM(IDLE) stands only at its end (R193). -/
def waitingProg : List MicroOp → Bool
  | [] => true
  | .fsm .idle :: ops => ops.isEmpty
  | op :: ops => waitingOp op && waitingProg ops

/-- The word at the head of a program that waits for the transport (R192). -/
def headWord (c : Word) : List MicroOp → Option Word
  | .emitCtrl :: _ => some (ctrlWord c)
  | .emit w :: _ => some w
  | _ => none

/-- R40 to R46: what the device holds after the completed transmits, from power-on (R42). -/
def replay (log : List Sent) : Rx := log.foldl Rx.after Rx.powerOn

/-- What holds of the block between any two steps. -/
structure State.Inv (s : State) : Prop where
  /-- R6: the parameters keep their constraints. -/
  paramsWf : s.params.wf = true
  /-- R21, R23: the unnamed bits of the cache read 0. -/
  hardwired : s.ctrl &&& ~~~namedBits = 0
  /-- R27, R192: a request is in flight exactly while a command is in progress. -/
  busyReq : s.busy = s.txReq
  /-- R28: while not busy, no micro-operation is left and no word is counted. -/
  idleEmpty : s.busy = false → s.uprog = [] ∧ s.wcount = 0
  /-- R192: while busy, the word in flight is that of the emit at the head of the program. -/
  inFlight : s.busy = true → headWord s.ctrl s.uprog = some s.txWord
  /-- R190, R90: what may stand in a waiting program. -/
  waiting : waitingProg s.uprog = true
  /-- R196: FSM(IDLE) waits only in RECONF. -/
  reconf : MicroOp.fsm .idle ∈ s.uprog → s.fsm = .reconf
  /-- R191, R196: before INIT nothing has been sent and nothing is in progress. -/
  uninit : s.fsm = .uninit → s.busy = false ∧ s.log = []
  /-- R40: the receiver view is what the words on the record left in the device. -/
  replayed : s.rx = replay s.log
  /-- R253: no word stood out of order, and what is left of the program keeps the order. -/
  ordered : ∃ q, wordOrder (some .free) s.log = some q ∧ keepsOrder q s.ctrl s.uprog = true

/-! ## The formulas over the reals -/

/-- R130 over the reals: `v(F)`. -/
noncomputable def realQuotient (refclk F : ℝ) : Int := ⌊F * 2 ^ 28 / refclk⌋

/-- R135 over the reals: `x(P)`. -/
noncomputable def realX (P : ℝ) : ℝ := P * 4096 / (2 * Real.pi)

/-- R135 over the reals: `floor(x(P) + 1/2) mod 4096`. -/
noncomputable def realPhase (P : ℝ) : Int := ⌊realX P + 1 / 2⌋ % 4096

/-! ## Runs and what they are stated over -/

/-- `k` steps of the machine. -/
def run (k : Nat) (s : State) : Result := Host.Core.run Sys2Proof.core k s

/-- R191: the block is initialised and not busy, and the command `c` is presented. -/
structure State.Ready (s : State) (c : Command) (rest : List Command) : Prop where
  idle        : s.busy = false
  presented   : s.cmds = c :: rest
  initialised : s.fsm ≠ .uninit

/-- R133: the policy admits the frequency `F`. -/
def State.admits (s : State) (F : Hertz) : Prop :=
  s.params.freqOutOfRange = .wrap ∨ (0 ≤ F.value ∧ F.value < s.params.refclk.value)

/-- R192: a word is in flight and the transport has answered it with `res`. -/
structure State.Answered (s : State) (res : TxResult) (rest : List TxResult) : Prop where
  busy     : s.busy = true
  request  : s.txReq = true
  answered : s.answers = res :: rest

/-- The transmits of `ws`, each completed with `Ok`. -/
def allOk (ws : List Word) : List Sent := ws.map fun w => ⟨w, .ok⟩

/-- R111, R161 to R166: the commands of one word, with the cache they leave and the word they send. -/
def oneWord (s : State) (c : Command) : Instr → Option (Word × Word)
  | .flush => some (s.ctrl, ctrlWord s.ctrl)
  | .setphase r => some (s.ctrl, phaseWordTagged r (phaseWord c.P))
  | .selfreq r => some (setFlag s.ctrl .fsel r.bit, ctrlWord (setFlag s.ctrl .fsel r.bit))
  | .selphase r => some (setFlag s.ctrl .psel r.bit, ctrlWord (setFlag s.ctrl .psel r.bit))
  | .setwave w => some (setWave s.ctrl w, ctrlWord (setWave s.ctrl w))
  | .rstassert => some (setFlag s.ctrl .reset true, ctrlWord (setFlag s.ctrl .reset true))
  | .rstrelease => some (setFlag s.ctrl .reset false, ctrlWord (setFlag s.ctrl .reset false))
  | .init | .setbit _ _ | .setfreq _ | .apply _ _ => none
  | .ctrlWrite _ | .freq0Write _ | .freq1Write _ | .phase0Write _ _ | .phase1Write _ _ => none

/-- R160: the three words of SETFREQ, from the cache `c`. -/
def setfreqWords (refclk : Hertz) (c : Word) (r : Reg) (F : Hertz) : List Word :=
  [ctrlWord (setFlag c .b28 true), freqWordTagged r (freqLo refclk F), freqWordTagged r (freqHi refclk F)]

/-- R193: the cache with which word `k` of APPLY (1 to 7) is in flight, from the cache `c`. -/
def applyCache (c : Word) (r : Reg) (w : Wave) (k : Nat) : Word :=
  let c1 := setFlag c .reset true
  let c2 := setFlag (setFlag (setFlag c1 .fsel r.bit) .psel r.bit) .b28 true
  let c3 := setWave c2 w
  if k ≤ 1 then c1 else if k ≤ 5 then c2 else if k ≤ 6 then c3 else setFlag c3 .reset false

/-- R193 and R197: the seven words of APPLY, from the cache `c`. -/
def applyWords (refclk : Hertz) (c : Word) (r : Reg) (F : Hertz) (P : Angle) (w : Wave) : List Word :=
  [ctrlWord (applyCache c r w 1), ctrlWord (applyCache c r w 2),
   freqWordTagged r (freqLo refclk F), freqWordTagged r (freqHi refclk F),
   phaseWordTagged r (phaseWord P),
   ctrlWord (applyCache c r w 6), ctrlWord (applyCache c r w 7)]

/-- The pair an APPLY or INIT does not touch. -/
def regOther : Reg → Reg
  | .r0 => .r1
  | .r1 => .r0

/-- R193 and R195: the cache, pair, frequency, phase and waveform an APPLY or INIT works with. -/
structure Composite where
  cache : Word
  r     : Reg
  F     : Hertz
  P     : Angle
  w     : Wave
  deriving DecidableEq, Repr

/-- The seven words of a composite command. -/
def Composite.words (refclk : Hertz) (k : Composite) : List Word :=
  applyWords refclk k.cache k.r k.F k.P k.w

/-- The cache with which its word `n` is in flight. -/
def Composite.cacheAt (k : Composite) (n : Nat) : Word := applyCache k.cache k.r k.w n

/-- The presented command is a composite one that the block accepts: APPLY once initialised with an admitted
frequency (R193), or INIT in any state of `fsm` (R195). -/
inductive State.StartsComposite (s : State) (c : Command) (rest : List Command) : Composite → Prop where
  | apply (r : Reg) (w : Wave) (ready : s.Ready c rest) (hdr : c.hdr = encode (.apply r w))
      (admitted : s.admits c.F) : State.StartsComposite s c rest ⟨s.ctrl, r, c.F, c.P, w⟩
  | init (idle : s.busy = false) (presented : s.cmds = c :: rest) (hdr : c.hdr = encode .init) :
      State.StartsComposite s c rest
        ⟨loadCtrl s.params.ctrlInit, s.params.initPair, s.params.initFreq, s.params.initPhase, s.params.initWave⟩

end Sys2Proof.Machine
end

