-- ==== Sys2Proof/Certificates/Slice0/Obligations.lean ====
section
/-! DEFINITION. The statements for the provers, one `def Obligations.<Name> : Prop` each, in the order of
OBLIGATIONS.json. -/

open Sys2Proof Sys2Proof.Machine

/-! ## Encoding -/

/-- R97: every line of the table assembles to the header and the slots given, and the header decodes to the
line's instruction. What a slot holds, and 0 in a slot that a line does not name, are the model's choice (log
entries 2 and 13). -/
def Obligations.AssemblyExamplesEncode : Prop :=
  ∀ e ∈ ([("INIT", ⟨0x1000, .rat 0, .ofRad 0⟩, .init),
      ("SETBIT SLEEP1, 1", ⟨0x20D0, .rat 0, .ofRad 0⟩, .setbit .sleep1 true),
      ("SETBIT B28, 0", ⟨0x2100, .rat 0, .ofRad 0⟩, .setbit .b28 false),
      ("FLUSH", ⟨0x3000, .rat 0, .ofRad 0⟩, .flush),
      ("SETFREQ 0, 137.0", ⟨0x4000, .rat 137, .ofRad 0⟩, .setfreq .r0),
      ("SETFREQ 1, 1000", ⟨0x4800, .rat 1000, .ofRad 0⟩, .setfreq .r1),
      ("SETPHASE 1, 1*pi/2", ⟨0x5800, .rat 0, .ofPi (1 / 2)⟩, .setphase .r1),
      ("SELFREQ 1", ⟨0x6800, .rat 0, .ofRad 0⟩, .selfreq .r1),
      ("SELPHASE 1", ⟨0x7800, .rat 0, .ofRad 0⟩, .selphase .r1),
      ("SETWAVE SQUAREHALF", ⟨0x8600, .rat 0, .ofRad 0⟩, .setwave .squareHalf),
      ("RSTASSERT", ⟨0x9000, .rat 0, .ofRad 0⟩, .rstassert),
      ("RSTRELEASE", ⟨0xA000, .rat 0, .ofRad 0⟩, .rstrelease),
      ("APPLY1 1000, 1*pi/2, SQUARE", ⟨0xBC00, .rat 1000, .ofPi (1 / 2)⟩, .apply .r1 .square)] :
      List (String × Command × Instr)),
    assembleLines [e.1.toList] = some [e.2.1] ∧ decodeHeader e.2.1.hdr = .cmd e.2.2

/-- R61 and R88 to R91: words written out bit by bit decode to the target and payload they carry. -/
def Obligations.WireWordExamplesDecode : Prop :=
  decodeWire 0b0010110100101000 = .ctrlWrite 0b10110100101000 ∧
  decodeWire 0b0101000111110100 = .freq0Write 0b01000111110100 ∧
  decodeWire 0b1000001100010010 = .freq1Write 0b00001100010010 ∧
  decodeWire 0b1100000000000000 = .phase0Write false 0b000000000000 ∧
  decodeWire 0b1110010000000000 = .phase1Write false 0b010000000000 ∧
  decodeWire 0b1101001000000001 = .phase0Write true 0b001000000001

/-- Decode and encode agree: every command is read back from its header with every operand, every wire word
from its word, and at the command port and at the device no other header or word reads as the same. -/
def Obligations.DecodeAndEncodeAgree : Prop :=
  (∀ i : Instr, i.isCommand = true → decodeHeader (encode i) = .cmd i) ∧
  (∀ i : Instr, i.isCommand = false → decodeWire (encode i) = i) ∧
  (∀ (h : Word) (i : Instr), decodeHeader h = .cmd i → i.isCommand = true ∧ encode i = h) ∧
  (∀ w : Word, (decodeWire w).isCommand = false ∧ encode (decodeWire w) = w)

/-- R85: which headers are refused, and for which reason: the opcode first, then the unused fields, then
SETBIT's flag code; every other header is a command with its opcode and its fields as the header has them. -/
def Obligations.HeaderChecksRunInOrder : Prop :=
  ∀ h : Word,
    let op := (h.extractLsb' 12 4).toNat
    let used : BitVec 12 :=
      if op = 0x2 then 0x1F0
      else if op = 0x4 ∨ op = 0x5 ∨ op = 0x6 ∨ op = 0x7 then 0x800
      else if op = 0x8 then 0x600
      else if op = 0xB then 0xE00
      else 0x000
    let unusedZero : Prop := h.extractLsb' 0 12 &&& ~~~used = 0
    let flagOk : Prop := op = 0x2 → (h.extractLsb' 5 4).toNat ≤ 8
    (¬(1 ≤ op ∧ op ≤ 0xB) → decodeHeader h = .refused .reservedOpcode) ∧
    ((1 ≤ op ∧ op ≤ 0xB) → ¬unusedZero → decodeHeader h = .refused .nonzeroUnusedField) ∧
    ((1 ≤ op ∧ op ≤ 0xB) → unusedZero → ¬flagOk → decodeHeader h = .refused .reservedFlag) ∧
    ((1 ≤ op ∧ op ≤ 0xB) → unusedZero → flagOk → ∃ i, decodeHeader h = .cmd i ∧ i.isCommand = true ∧ encode i = h)

/-! ## The step -/

/-- R191: when the block is not busy and the header presented decodes to a command, the step is that command. -/
def Obligations.StepRunsPresentedCommand : Prop :=
  ∀ (s : State) (c : Command) (rest : List Command) (i : Instr),
    s.busy = false → s.cmds = c :: rest → decodeHeader c.hdr = .cmd i → step s = exec i s

/-- R192: when a word is in flight and the transport has answered, the step is that word's completion. -/
def Obligations.StepRunsWordInFlight : Prop :=
  ∀ (s : State) (res : TxResult) (rest : List TxResult),
    s.Answered res rest → step s = exec (decodeWire s.txWord) s

/-- R199: with no command presented, or no answer to the word in flight, the block waits, its state as it is. That a
wait is a step, and what stands for a missing input, are the model's choice (log entries 5, 6 and 17). -/
def Obligations.StepWaitsForItsInputs : Prop :=
  (∀ s : State, s.busy = false → s.cmds = [] → step s = .next s) ∧
  (∀ s : State, s.busy = true → s.answers = [] → step s = .next s)

/-- File 93: nothing stops the block. Every instruction in every state, and every step, answers a next state. -/
def Obligations.NothingStopsTheBlock : Prop :=
  (∀ (i : Instr) (s : State), ∃ t, exec i s = .next t) ∧ (∀ s : State, ∃ t, step s = .next t)

/-- A word of the opcode table placed where the next step takes its instruction from is the one it runs
(log entry 7). -/
def Obligations.PlacedWordIsTheOneRun : Prop :=
  ∀ (s : State) (w : Nat) (i : Instr),
    decodeTableWord 16 w = some i → step (s.withFetchWord 16 w) = exec i (s.withFetchWord 16 w)

/-- R191: a command presented while the block is busy is held: it changes nothing, and no step takes one from
the port before `busy` falls. -/
def Obligations.BusyBlockHoldsCommands : Prop :=
  (∀ (i : Instr) (s : State), s.busy = true → i.isCommand = true → exec i s = .next s) ∧
  (∀ s t : State, s.busy = true → step s = .next t → t.cmds = s.cmds)

/-! ## Refusals -/

/-- R86: a header that does not decode is refused with its reason; the command is taken and nothing but `resp`
changes. -/
def Obligations.ReservedHeadersAreRefused : Prop :=
  ∀ (s : State) (c : Command) (rest : List Command) (r : RefuseReason),
    s.busy = false → s.cmds = c :: rest → decodeHeader c.hdr = .refused r →
    step s = .next { s with cmds := rest, resp := .refused r }

/-- R191: before INIT every other command is refused with NOT_INITIALISED, whatever its frequency, and nothing
but `resp` changes. -/
def Obligations.CommandsBeforeInitAreRefused : Prop :=
  ∀ (s : State) (c : Command) (rest : List Command) (i : Instr),
    s.busy = false → s.cmds = c :: rest → s.fsm = .uninit → i.isCommand = true → i ≠ .init →
    exec i s = .next { s with cmds := rest, resp := .refused .notInitialised }

/-- R133: under the policy `refuse`, SETFREQ and APPLY with a frequency outside `[0, REFCLK_HZ)` are refused, and
nothing but `resp` changes. -/
def Obligations.OutOfRangeFrequencyIsRefused : Prop :=
  ∀ (s : State) (c : Command) (rest : List Command) (r : Reg) (w : Wave),
    s.Ready c rest → s.params.freqOutOfRange = .refuse → (c.F.value < 0 ∨ s.params.refclk.value ≤ c.F.value) →
    exec (.setfreq r) s = .next { s with cmds := rest, resp := .refused .freqOutOfRange } ∧
    exec (.apply r w) s = .next { s with cmds := rest, resp := .refused .freqOutOfRange }

/-! ## Commands: the accept step -/

/-- R110: SETBIT writes the one named bit of the cache, emits nothing and completes in its accept step. -/
def Obligations.SetbitWritesOneFlag : Prop :=
  ∀ (s : State) (c : Command) (rest : List Command) (f : Field) (v : Bool),
    s.Ready c rest →
    exec (.setbit f v) s = .next { s with cmds := rest, ctrl := setFlag s.ctrl f v, busy := false, uprog := [], wcount := 0, resp := .ok }

/-- R111: FLUSH presents the cached control word. -/
def Obligations.FlushPresentsTheCache : Prop :=
  ∀ (s : State) (c : Command) (rest : List Command),
    s.Ready c rest →
    exec .flush s = .next { s with cmds := rest, busy := true, uprog := [.emitCtrl], wcount := 0, txReq := true, txWord := ctrlWord s.ctrl }

/-- R160: SETFREQ sets B28 and presents the control word; the two halves, low first, wait behind it. -/
def Obligations.SetfreqIsAccepted : Prop :=
  ∀ (s : State) (c : Command) (rest : List Command) (r : Reg),
    s.Ready c rest → s.admits c.F →
    exec (.setfreq r) s = .next { s with
      cmds := rest, ctrl := setFlag s.ctrl .b28 true, busy := true, wcount := 0, txReq := true,
      txWord := ctrlWord (setFlag s.ctrl .b28 true),
      uprog := [.emitCtrl, .emit (freqWordTagged r (freqLo s.params.refclk c.F)), .emit (freqWordTagged r (freqHi s.params.refclk c.F))] }

/-- R161: SETPHASE presents the tagged phase word and leaves the cache alone. -/
def Obligations.SetphaseIsAccepted : Prop :=
  ∀ (s : State) (c : Command) (rest : List Command) (r : Reg),
    s.Ready c rest →
    exec (.setphase r) s = .next { s with
      cmds := rest, busy := true, wcount := 0, txReq := true,
      txWord := phaseWordTagged r (phaseWord c.P), uprog := [.emit (phaseWordTagged r (phaseWord c.P))] }

/-- R162 and R163: SELFREQ and SELPHASE write their select bit and present the control word. -/
def Obligations.SelectsAreAccepted : Prop :=
  ∀ (s : State) (c : Command) (rest : List Command) (r : Reg),
    s.Ready c rest →
    exec (.selfreq r) s = .next { s with
      cmds := rest, ctrl := setFlag s.ctrl .fsel r.bit, busy := true, wcount := 0, txReq := true,
      txWord := ctrlWord (setFlag s.ctrl .fsel r.bit), uprog := [.emitCtrl] } ∧
    exec (.selphase r) s = .next { s with
      cmds := rest, ctrl := setFlag s.ctrl .psel r.bit, busy := true, wcount := 0, txReq := true,
      txWord := ctrlWord (setFlag s.ctrl .psel r.bit), uprog := [.emitCtrl] }

/-- R164: SETWAVE writes MODE, OPBITEN and, for the two square waveforms, DIV2 as the table says, every other
bit as it was, and presents the control word. -/
def Obligations.SetwaveIsAccepted : Prop :=
  ∀ (s : State) (c : Command) (rest : List Command) (w : Wave),
    s.Ready c rest →
    ∃ x : Word,
      exec (.setwave w) s = .next { s with
        cmds := rest, ctrl := x, busy := true, wcount := 0, txReq := true, txWord := ctrlWord x, uprog := [.emitCtrl] } ∧
      getFlag x .mode = (w == .triangle) ∧
      getFlag x .opbiten = (w == .square || w == .squareHalf) ∧
      getFlag x .div2 = (if w = .square then true else if w = .squareHalf then false else getFlag s.ctrl .div2) ∧
      ∀ k : Nat, k ≠ 1 → k ≠ 3 → k ≠ 5 → x.getLsbD k = s.ctrl.getLsbD k

/-- R165 and R166: RSTASSERT and RSTRELEASE write RESET, leave `fsm` alone and present the control word. -/
def Obligations.ResetCommandsAreAccepted : Prop :=
  ∀ (s : State) (c : Command) (rest : List Command),
    s.Ready c rest →
    exec .rstassert s = .next { s with
      cmds := rest, ctrl := setFlag s.ctrl .reset true, busy := true, wcount := 0, txReq := true,
      txWord := ctrlWord (setFlag s.ctrl .reset true), uprog := [.emitCtrl] } ∧
    exec .rstrelease s = .next { s with
      cmds := rest, ctrl := setFlag s.ctrl .reset false, busy := true, wcount := 0, txReq := true,
      txWord := ctrlWord (setFlag s.ctrl .reset false), uprog := [.emitCtrl] }

/-- R193: APPLY enters RECONF, sets RESET and presents the control word; the rest of its program waits. -/
def Obligations.ApplyIsAccepted : Prop :=
  ∀ (s : State) (c : Command) (rest : List Command) (r : Reg) (w : Wave),
    s.Ready c rest → s.admits c.F →
    exec (.apply r w) s = .next { s with
      cmds := rest, fsm := .reconf, ctrl := setFlag s.ctrl .reset true, busy := true, wcount := 0, txReq := true,
      txWord := ctrlWord (setFlag s.ctrl .reset true),
      uprog := [.emitCtrl, .set .fsel r.bit, .set .psel r.bit, .set .b28 true, .emitCtrl,
          .emit (freqWordTagged r (freqLo s.params.refclk c.F)), .emit (freqWordTagged r (freqHi s.params.refclk c.F)),
          .emit (phaseWordTagged r (phaseWord c.P))] ++
        waveSets w ++ [.emitCtrl, .set .reset false, .emitCtrl, .fsm .idle] }

/-- R195: INIT is accepted in every state of `fsm`: it loads CTRL_INIT, enters RECONF, sets RESET and presents the
control word; the rest of APPLY's program, with the startup configuration, waits. -/
def Obligations.InitIsAcceptedInEveryState : Prop :=
  ∀ (s : State) (c : Command) (rest : List Command),
    s.busy = false → s.cmds = c :: rest → s.params.wf = true →
    exec .init s = .next { s with
      cmds := rest, fsm := .reconf, ctrl := setFlag s.params.ctrlInit .reset true, busy := true, wcount := 0, txReq := true,
      txWord := ctrlWord (setFlag s.params.ctrlInit .reset true),
      uprog := [.emitCtrl, .set .fsel s.params.initPair.bit, .set .psel s.params.initPair.bit, .set .b28 true, .emitCtrl,
          .emit (freqWordTagged s.params.initPair (freqLo s.params.refclk s.params.initFreq)),
          .emit (freqWordTagged s.params.initPair (freqHi s.params.refclk s.params.initFreq)),
          .emit (phaseWordTagged s.params.initPair (phaseWord s.params.initPhase))] ++
        waveSets s.params.initWave ++ [.emitCtrl, .set .reset false, .emitCtrl, .fsm .idle] }

/-! ## Wire words: the transmit-completion step -/

/-- R192, `Ok`, at the end of a program: the command is complete, and the word and what the device made of it
are on the record. -/
def Obligations.LastWordCompletesTheCommand : Prop :=
  ∀ (i : Instr) (s : State) (rest : List TxResult) (op : MicroOp),
    i.isCommand = false → s.Answered .ok rest → s.uprog = [op] →
    exec i s = .next { s with
      busy := false, uprog := [], wcount := 0, resp := .ok, txReq := false, answers := rest,
      rx := s.rx.latch i, log := s.log ++ [⟨encode i, .ok⟩] }

/-- R192, `Ok`, with another word next in the program: the word is counted and the next one presented. -/
def Obligations.CompletedWordLeadsToTheNext : Prop :=
  ∀ (i : Instr) (s : State) (rest : List TxResult) (op : MicroOp) (w : Word) (ops : List MicroOp),
    i.isCommand = false → s.Answered .ok rest → s.uprog = op :: .emit w :: ops →
    exec i s = .next { s with
      uprog := .emit w :: ops, wcount := s.wcount + 1, txWord := w, txReq := true, answers := rest,
      rx := s.rx.latch i, log := s.log ++ [⟨encode i, .ok⟩] }

/-- R192, `Ok`, whatever is left of the program: the word is on the record, the device holds what it latches, the
command either completes with OK or presents another word, and the ports and parameters are otherwise as
they were. -/
def Obligations.CompletedWordIsRecorded : Prop :=
  ∀ (i : Instr) (s : State) (rest : List TxResult),
    i.isCommand = false → s.Answered .ok rest →
    ∃ t, exec i s = .next t ∧ t.answers = rest ∧ t.rx = s.rx.latch i ∧ t.log = s.log ++ [⟨encode i, .ok⟩] ∧
      t.cmds = s.cmds ∧ t.params = s.params ∧
      ((t.busy = false ∧ t.txReq = false ∧ t.uprog = [] ∧ t.wcount = 0 ∧ t.resp = .ok ∧ t.txWord = s.txWord) ∨
       (t.busy = true ∧ t.txReq = true ∧ headWord t.ctrl t.uprog = some t.txWord ∧ t.uprog <:+ s.uprog.tail ∧
        t.wcount = s.wcount + 1 ∧ t.resp = s.resp))

/-- R192, `Err`: the transport error aborts the command: word number `wcount + 1`, the word and the error are
reported, the rest of the program is discarded, `busy` falls, and the cache and `fsm` stay as they are. -/
def Obligations.FailedWordAbortsTheCommand : Prop :=
  ∀ (i : Instr) (s : State) (e : TransportError) (rest : List TxResult),
    i.isCommand = false → s.Answered (.err e) rest →
    exec i s = .next { s with
      resp := .transportError (s.wcount + 1) (encode i) e, uprog := [], wcount := 0, busy := false,
      txReq := false, answers := rest, rx := s.rx.lose i, log := s.log ++ [⟨encode i, .err e⟩] }

/-! ## The receiver view -/

/-- R43: a completed control word is latched as the control register and starts a fresh pairing; the frequency
and phase registers stay. That it starts a fresh pairing (`pend` becomes None) is the spec's own reading (D10),
which the model takes as its choice in log entry 10. -/
def Obligations.ControlWordIsLatched : Prop :=
  ∀ (s : State) (c : BitVec 14) (rest : List TxResult),
    s.Answered .ok rest →
    ∃ t, exec (.ctrlWrite c) s = .next t ∧
      t.rx = { s.rx with ctrl := .known (0b00#2 ++ c), pend := .none }

/-- R44: a completed frequency half: the first after a control word with B28 = 1 is held, the second to the same
register latches 28 bits, and in every other case the register is Unknown. The control register and the
phase registers stay. -/
def Obligations.FrequencyHalvesArePaired : Prop :=
  ∀ (s : State) (r : Reg) (d : Half) (rest : List TxResult),
    s.Answered .ok rest →
    ∃ t, exec (match r with | .r0 => .freq0Write d | .r1 => .freq1Write d) s = .next t ∧
      t.rx.ctrl = s.rx.ctrl ∧ t.rx.phase0 = s.rx.phase0 ∧ t.rx.phase1 = s.rx.phase1 ∧
      ((∃ c, s.rx.ctrl = .known c ∧ c.getLsbD 13 = true) →
        (s.rx.pend = .none → t.rx.pend = .lo r d ∧ t.rx.freq0 = s.rx.freq0 ∧ t.rx.freq1 = s.rx.freq1) ∧
        (∀ d', s.rx.pend = .lo r d' →
          t.rx.freq r = .known (d ++ d') ∧ t.rx.freq (regOther r) = s.rx.freq (regOther r) ∧ t.rx.pend = .none) ∧
        (∀ d', s.rx.pend = .lo (regOther r) d' →
          t.rx.freq0 = .unknown ∧ t.rx.freq1 = .unknown ∧ t.rx.pend = .unknown) ∧
        (s.rx.pend = .unknown →
          t.rx.freq r = .unknown ∧ t.rx.freq (regOther r) = s.rx.freq (regOther r) ∧ t.rx.pend = .unknown)) ∧
      ((¬∃ c, s.rx.ctrl = .known c ∧ c.getLsbD 13 = true) →
        t.rx.freq r = .unknown ∧ t.rx.freq (regOther r) = s.rx.freq (regOther r) ∧ t.rx.pend = .unknown)

/-- R45: a completed phase word is latched into its register, whatever its bit 12; everything else the device
holds stays, the pending half too. -/
def Obligations.PhaseWordIsLatched : Prop :=
  ∀ (s : State) (z : Bool) (d : PhaseWord) (rest : List TxResult),
    s.Answered .ok rest →
    (∃ t, exec (.phase0Write z d) s = .next t ∧ t.rx = { s.rx with phase0 := .known d }) ∧
    (∃ t, exec (.phase1Write z d) s = .next t ∧ t.rx = { s.rx with phase1 := .known d })

/-- R46: a failed word makes its target Unknown, and the pending half too unless it was a phase word; everything
else the device holds stays. -/
def Obligations.FailedWordLosesItsTarget : Prop :=
  ∀ (s : State) (e : TransportError) (rest : List TxResult) (c : BitVec 14) (d : Half) (z : Bool) (p : PhaseWord),
    s.Answered (.err e) rest →
    (∃ t, exec (.ctrlWrite c) s = .next t ∧ t.rx = { s.rx with ctrl := .unknown, pend := .unknown }) ∧
    (∃ t, exec (.freq0Write d) s = .next t ∧ t.rx = { s.rx with freq0 := .unknown, pend := .unknown }) ∧
    (∃ t, exec (.freq1Write d) s = .next t ∧ t.rx = { s.rx with freq1 := .unknown, pend := .unknown }) ∧
    (∃ t, exec (.phase0Write z p) s = .next t ∧ t.rx = { s.rx with phase0 := .unknown }) ∧
    (∃ t, exec (.phase1Write z p) s = .next t ∧ t.rx = { s.rx with phase1 := .unknown })

/-- R47: the output observation, for every receiver view: Unknown without a control word, Forced while its RESET is 1,
else the register its FSEL selects, the register its PSEL selects and the shape of its MODE, OPBITEN and DIV2.That the
device is this view, and where the bits stand, are log entries 10 and 9. -/
def Obligations.OutputOfTheReceiverView : Prop :=
  ∀ rx : Rx,
    (rx.ctrl = .unknown → rx.out = .unknown) ∧
    (∀ c, rx.ctrl = .known c → c.getLsbD 8 = true → rx.out = .forced) ∧
    (∀ c, rx.ctrl = .known c → c.getLsbD 8 = false →
      rx.out = .running (if c.getLsbD 11 then rx.freq1 else rx.freq0) (if c.getLsbD 10 then rx.phase1 else rx.phase0)
        (c.getLsbD 1) (c.getLsbD 5) (c.getLsbD 3))

/-- R67: a control word or a phase word sent twice in a row leaves the device as sending it once; a low half sent
twice is taken as the high half of the same value. -/
def Obligations.RepeatedWordsAtTheDevice : Prop :=
  ∀ rx : Rx,
    (∀ c, (rx.latch (.ctrlWrite c)).latch (.ctrlWrite c) = rx.latch (.ctrlWrite c)) ∧
    (∀ z d, (rx.latch (.phase0Write z d)).latch (.phase0Write z d) = rx.latch (.phase0Write z d)) ∧
    (∀ z d, (rx.latch (.phase1Write z d)).latch (.phase1Write z d) = rx.latch (.phase1Write z d)) ∧
    (∀ c d, getFlag (packCtrl c) .b28 = true →
      (((rx.latch (.ctrlWrite c)).latch (.freq0Write d)).latch (.freq0Write d)).freq .r0 = .known (d ++ d) ∧
      (((rx.latch (.ctrlWrite c)).latch (.freq1Write d)).latch (.freq1Write d)).freq .r1 = .known (d ++ d))

/-! ## Whole commands -/

/-- R111 and R161 to R166: each command of one word runs to its end in two steps when its word completes: the
cache, the word and everything else as its rule says. -/
def Obligations.OneWordCommandsComplete : Prop :=
  ∀ (s : State) (c : Command) (rest : List Command) (i : Instr) (x w : Word) (as : List TxResult),
    s.Ready c rest → c.hdr = encode i → oneWord s c i = some (x, w) → s.answers = .ok :: as →
    run 2 s = .next { s with
      cmds := rest, answers := as, ctrl := x, busy := false, uprog := [], wcount := 0, resp := .ok,
      txReq := false, txWord := w, rx := s.rx.after ⟨w, .ok⟩, log := s.log ++ [⟨w, .ok⟩] }

/-- R221: each command of one word that fails: the write to the cache made before the word stays, and `fsm` is
unchanged. -/
def Obligations.OneWordCommandsAbort : Prop :=
  ∀ (s : State) (c : Command) (rest : List Command) (i : Instr) (x w : Word) (e : TransportError) (as : List TxResult),
    s.Ready c rest → c.hdr = encode i → oneWord s c i = some (x, w) → s.answers = .err e :: as →
    run 2 s = .next { s with
      cmds := rest, answers := as, ctrl := x, busy := false, uprog := [], wcount := 0,
      resp := .transportError 1 w e, txReq := false, txWord := w,
      rx := s.rx.after ⟨w, .err e⟩, log := s.log ++ [⟨w, .err e⟩] }

/-- R160: SETFREQ runs to its end in four steps: three words, the control word with B28 = 1, the low half and the
high half; of the cache only B28 is written. -/
def Obligations.SetfreqSendsThreeWords : Prop :=
  ∀ (s : State) (c : Command) (rest : List Command) (r : Reg) (as : List TxResult),
    s.Ready c rest → c.hdr = encode (.setfreq r) → s.admits c.F → s.answers = [.ok, .ok, .ok] ++ as →
    run 4 s = .next { s with
      cmds := rest, answers := as, ctrl := setFlag s.ctrl .b28 true, busy := false, uprog := [], wcount := 0, resp := .ok,
      txReq := false, txWord := freqWordTagged r (freqHi s.params.refclk c.F),
      rx := (allOk (setfreqWords s.params.refclk s.ctrl r c.F)).foldl Rx.after s.rx,
      log := s.log ++ allOk (setfreqWords s.params.refclk s.ctrl r c.F) }

/-- R160 and R221: SETFREQ failing at word `k`: words 1 to k-1 were sent, word k is reported, no later word
follows, and B28 = 1 stays in the cache. -/
def Obligations.SetfreqAbortsAtAnyWord : Prop :=
  ∀ (s : State) (c : Command) (rest : List Command) (r : Reg) (k : Nat) (e : TransportError) (as : List TxResult),
    s.Ready c rest → c.hdr = encode (.setfreq r) → s.admits c.F → k < 3 →
    s.answers = List.replicate k .ok ++ .err e :: as →
    ∃ w, (setfreqWords s.params.refclk s.ctrl r c.F)[k]? = some w ∧
      run (k + 2) s = .next { s with
        cmds := rest, answers := as, ctrl := setFlag s.ctrl .b28 true, busy := false, uprog := [], wcount := 0,
        resp := .transportError (k + 1) w e, txReq := false, txWord := w,
        rx := (allOk ((setfreqWords s.params.refclk s.ctrl r c.F).take k) ++ ([⟨w, .err e⟩] : List Sent)).foldl Rx.after s.rx,
        log := s.log ++ allOk ((setfreqWords s.params.refclk s.ctrl r c.F).take k) ++ [⟨w, .err e⟩] }

/-- R160 and R168: at the device, a completed SETFREQ changes FREQr at its third word only, to FreqWord28(F);
the other frequency register and both phase registers stay. -/
def Obligations.SetfreqLatchesAtItsThirdWord : Prop :=
  ∀ (s : State) (c : Command) (rest : List Command) (r : Reg) (as : List TxResult),
    s.Ready c rest → c.hdr = encode (.setfreq r) → s.admits c.F → s.answers = [.ok, .ok, .ok] ++ as →
    ∃ t1 t2 t3, run 2 s = .next t1 ∧ run 3 s = .next t2 ∧ run 4 s = .next t3 ∧
      t1.rx.freq r = s.rx.freq r ∧ t2.rx.freq r = s.rx.freq r ∧
      t3.rx.freq r = .known (freqWord28 s.params.refclk c.F) ∧
      t3.rx.freq (regOther r) = s.rx.freq (regOther r) ∧
      t3.rx.phase0 = s.rx.phase0 ∧ t3.rx.phase1 = s.rx.phase1 ∧
      t3.rx.ctrl = .known (ctrlWord (setFlag s.ctrl .b28 true)) ∧ t3.rx.pend = .none

/-- R193, R195 and R197: APPLY, and INIT from every state of `fsm`, run to their end in eight steps: exactly seven
words in the order of the rule, `fsm` IDLE and the cache as the rule gives it. -/
def Obligations.CompositeSendsSevenWords : Prop :=
  ∀ (s : State) (c : Command) (rest : List Command) (k : Composite) (as : List TxResult),
    s.StartsComposite c rest k → s.answers = List.replicate 7 .ok ++ as →
    run 8 s = .next { s with
      cmds := rest, answers := as, ctrl := k.cacheAt 7, fsm := .idle, busy := false, uprog := [], wcount := 0, resp := .ok,
      txReq := false, txWord := ctrlWord (k.cacheAt 7),
      rx := (allOk (k.words s.params.refclk)).foldl Rx.after s.rx,
      log := s.log ++ allOk (k.words s.params.refclk) }

/-- R193: the cache an APPLY or INIT leaves: RESET = 0, FSEL = PSEL = r, B28 = 1, the waveform's bits by R164, and
the sleep bits and, for Sine and Triangle, DIV2 as they were. -/
def Obligations.CompositeLeavesThisCache : Prop :=
  ∀ (s : State) (c : Command) (rest : List Command) (k : Composite) (as : List TxResult),
    s.StartsComposite c rest k → s.answers = List.replicate 7 .ok ++ as →
    ∃ t, run 8 s = .next t ∧
      getFlag t.ctrl .reset = false ∧ getFlag t.ctrl .fsel = k.r.bit ∧ getFlag t.ctrl .psel = k.r.bit ∧
      getFlag t.ctrl .b28 = true ∧ getFlag t.ctrl .mode = (k.w == .triangle) ∧
      getFlag t.ctrl .opbiten = (k.w == .square || k.w == .squareHalf) ∧
      getFlag t.ctrl .div2 = (if k.w = .square then true else if k.w = .squareHalf then false else getFlag k.cache .div2) ∧
      getFlag t.ctrl .sleep1 = getFlag k.cache .sleep1 ∧ getFlag t.ctrl .sleep12 = getFlag k.cache .sleep12

/-- R222: an APPLY or INIT that fails at word `n + 1`: `fsm` stays RECONF, words 1 to n were sent, the failed word is
reported, no later word follows, and the cache holds every write made before it. -/
def Obligations.CompositeAbortsAtAnyWord : Prop :=
  ∀ (s : State) (c : Command) (rest : List Command) (k : Composite) (n : Nat) (e : TransportError) (as : List TxResult),
    s.StartsComposite c rest k → n < 7 → s.answers = List.replicate n .ok ++ .err e :: as →
    ∃ w, (k.words s.params.refclk)[n]? = some w ∧
      run (n + 2) s = .next { s with
        cmds := rest, answers := as, ctrl := k.cacheAt (n + 1), fsm := .reconf, busy := false, uprog := [], wcount := 0,
        resp := .transportError (n + 1) w e, txReq := false, txWord := w,
        rx := (allOk ((k.words s.params.refclk).take n) ++ ([⟨w, .err e⟩] : List Sent)).foldl Rx.after s.rx,
        log := s.log ++ allOk ((k.words s.params.refclk).take n) ++ [⟨w, .err e⟩] }

/-- R222, the table: what an aborted APPLY or INIT leaves in the cache and at the device, by the word that
failed. -/
def Obligations.AbortedCompositeTable : Prop :=
  ∀ (s : State) (c : Command) (rest : List Command) (k : Composite) (n : Nat) (e : TransportError) (as : List TxResult),
    s.StartsComposite c rest k → n < 7 → s.answers = List.replicate n .ok ++ .err e :: as →
    ∃ t, run (n + 2) s = .next t ∧ t.fsm = .reconf ∧
      getFlag t.ctrl .reset = decide (n ≠ 6) ∧
      (1 ≤ n → getFlag t.ctrl .fsel = k.r.bit ∧ getFlag t.ctrl .psel = k.r.bit ∧ getFlag t.ctrl .b28 = true) ∧
      (n = 0 → t.ctrl = setFlag k.cache .reset true) ∧
      (5 ≤ n → getFlag t.ctrl .mode = (k.w == .triangle) ∧ getFlag t.ctrl .opbiten = (k.w == .square || k.w == .squareHalf)) ∧
      (n = 0 ∨ n = 1 ∨ n = 5 ∨ n = 6 → t.rx.ctrl = .unknown ∧ t.rx.pend = .unknown ∧ t.rx.out = .unknown) ∧
      (n = 2 ∨ n = 3 → t.rx.ctrl = .known (ctrlWord (k.cacheAt 2)) ∧ t.rx.freq k.r = .unknown ∧ t.rx.out = .forced) ∧
      (n = 4 → t.rx.freq k.r = .known (freqWord28 s.params.refclk k.F) ∧ t.rx.phase k.r = .unknown ∧ t.rx.out = .forced)

/-- R198 and R70, reset gating: while an APPLY or INIT runs, from every prior state of the device, the output is
Forced after each of words 1 to 6 and runs with the new pair, values and shape after word 7; the other pair's
registers keep what they held, and the cache is not stale. -/
def Obligations.CompositeIsAtomicAtTheOutput : Prop :=
  ∀ (s : State) (c : Command) (rest : List Command) (k : Composite) (as : List TxResult),
    s.StartsComposite c rest k → s.answers = List.replicate 7 .ok ++ as →
    (∀ n, 1 ≤ n → n ≤ 6 → ∃ t, run (n + 1) s = .next t ∧ t.rx.out = .forced) ∧
    (∃ t, run 4 s = .next t ∧ t.rx.pend = .lo k.r (freqLo s.params.refclk k.F)) ∧
    (∃ t, run 5 s = .next t ∧ t.rx.freq k.r = .known (freqWord28 s.params.refclk k.F)) ∧
    (∃ t, run 6 s = .next t ∧ t.rx.phase k.r = .known (phaseWord k.P)) ∧
    (∃ t, run 8 s = .next t ∧ t.rx.ctrl = .known (ctrlWord t.ctrl) ∧ t.stale = false ∧
      getFlag t.ctrl .reset = false ∧ getFlag t.ctrl .fsel = k.r.bit ∧ getFlag t.ctrl .psel = k.r.bit ∧
      (s.ctrl &&& ~~~namedBits = 0 → ctrlWord t.ctrl = t.ctrl) ∧
      t.rx.freq (regOther k.r) = s.rx.freq (regOther k.r) ∧ t.rx.phase (regOther k.r) = s.rx.phase (regOther k.r) ∧
      t.rx.out = .running (.known (freqWord28 s.params.refclk k.F)) (.known (phaseWord k.P))
        (getFlag t.ctrl .mode) (getFlag t.ctrl .opbiten) (getFlag t.ctrl .div2))

/-- R25: after a command that sends a control word and completes, the cache is not stale; SETPHASE and every
refused command leave staleness as it was; and after SETBIT a fresh cache is stale exactly if a bit of the
control word changed. -/
def Obligations.StalenessOfTheCache : Prop :=
  (∀ (s : State) (c : Command) (rest : List Command) (i : Instr) (x w : Word) (as : List TxResult),
    s.Ready c rest → c.hdr = encode i → oneWord s c i = some (x, w) → s.answers = .ok :: as →
    ∃ t, run 2 s = .next t ∧ t.stale = (match i with | .setphase _ => s.stale | _ => false)) ∧
  (∀ (s : State) (c : Command) (rest : List Command) (r : Reg) (as : List TxResult),
    s.Ready c rest → c.hdr = encode (.setfreq r) → s.admits c.F → s.answers = [.ok, .ok, .ok] ++ as →
    ∃ t, run 4 s = .next t ∧ t.stale = false) ∧
  (∀ (s : State) (c : Command) (rest : List Command) (f : Field) (v : Bool),
    s.Ready c rest → s.stale = false →
    ∃ t, exec (.setbit f v) s = .next t ∧ t.stale = (ctrlWord t.ctrl != ctrlWord s.ctrl)) ∧
  (∀ (s : State) (rest : List Command) (r : RefuseReason), s.event = .refuse r rest →
    ∃ t, step s = .next t ∧ t.stale = s.stale)

/-! ## Flags and conversions -/

/-- R22 and R113: the position of each flag (the spec's own choice D3, log entry 9, PRESUMED); a flag is read
there, a flag write is the formula of the rule and changes that bit and no
other, and the micro-operation SET is that write of the cache. -/
def Obligations.FlagWriteChangesOneBit : Prop :=
  [Field.reset, .mode, .opbiten, .fsel, .psel, .div2, .sleep1, .sleep12, .b28].map fieldPos = [8, 1, 5, 11, 10, 3, 7, 6, 13] ∧
  (∀ (c : Word) (f : Field), getFlag c f = c.getLsbD (fieldPos f)) ∧
  (∀ (c : Word) (f : Field) (b : Bool),
    setFlag c f b = (c &&& ~~~(1#16 <<< fieldPos f)) ||| ((if b then 1#16 else 0#16) <<< fieldPos f)) ∧
  (∀ (c : Word) (f : Field) (b : Bool) (k : Nat),
    (setFlag c f b).getLsbD k = if k = fieldPos f then b else c.getLsbD k) ∧
  (∀ (s : State) (f : Field) (b : Bool) (ops : List MicroOp),
    runInternal s (.set f b :: ops) = runInternal { s with ctrl := setFlag s.ctrl f b } ops)

/-- R130 to R133: the halves and the 28-bit word of a frequency, for every real clock and frequency (log entry 2). -/
def Obligations.FrequencyWordFormula : Prop :=
  ∀ refclk F : Hertz, 0 < refclk.value →
    ((freqLo refclk F).toNat : Int) = ⌊F.value * 2 ^ 28 / refclk.value⌋ % 2 ^ 32 % 2 ^ 14 ∧
    ((freqHi refclk F).toNat : Int) = ⌊F.value * 2 ^ 28 / refclk.value⌋ % 2 ^ 32 / 2 ^ 14 % 2 ^ 14 ∧
    ((freqWord28 refclk F).toNat : Int) = ⌊F.value * 2 ^ 28 / refclk.value⌋ % 2 ^ 28

/-- R134: the frequency laws (a) to (d) on `[0, REFCLK_HZ)`, for every real clock and frequency (log entry 2). -/
def Obligations.FrequencyLaws : Prop :=
  ∀ refclk : Hertz, 0 < refclk.value →
    (∀ F : Hertz, 0 ≤ F.value → F.value < refclk.value →
      0 ≤ freqQuotient refclk F ∧ freqQuotient refclk F < 2 ^ 28 ∧
      ((freqW32 refclk F).toNat : Int) = freqQuotient refclk F ∧
      ((freqWord28 refclk F).toNat : Int) = freqQuotient refclk F ∧
      ((freqWord28 refclk F).toNat : ℝ) * refclk.value / 2 ^ 28 ≤ F.value ∧
      F.value < ((freqWord28 refclk F).toNat : ℝ) * refclk.value / 2 ^ 28 + refclk.value / 2 ^ 28) ∧
    (∀ F1 F2 : Hertz, 0 ≤ F1.value → F1.value ≤ F2.value → F2.value < refclk.value →
      (freqWord28 refclk F1).toNat ≤ (freqWord28 refclk F2).toNat) ∧
    (∀ (k : Nat) (F : Hertz), k < 2 ^ 28 → F.value = k * refclk.value / 2 ^ 28 → (freqWord28 refclk F).toNat = k)

/-- R135: the phase encoder is exact: for every operand (log entry 2), the 12-bit word is the real formula's. -/
def Obligations.PhaseWordIsExact : Prop :=
  ∀ a : Angle, ((phaseWord a).toNat : Int) = ⌊a.value * 4096 / (2 * Real.pi) + 1 / 2⌋ % 4096

/-- R136: the phase laws (a) to (d), for every operand (log entry 2). -/
def Obligations.PhaseLaws : Prop :=
  (∀ a : Angle, (phaseWord a).toNat ≤ 4095) ∧
  (∀ (a b : Angle) (k : Int), b.value = a.value + 2 * Real.pi * k → phaseWord b = phaseWord a) ∧
  (∀ (a : Angle) (k : Int), a.value = k * Real.pi / 2048 → ((phaseWord a).toNat : Int) = k % 4096) ∧
  (∀ a : Angle, ∃ m : Int, |a.value * 4096 / (2 * Real.pi) - m| ≤ 1 / 2 ∧ m % 4096 = (phaseWord a).toNat)

/-- R137: an operand `q*pi` is computed without π. -/
def Obligations.PhaseOfPiMultiples : Prop :=
  ∀ q : Rat, ((phaseWord (.ofPi q)).toNat : Int) = ⌊2048 * q + 1 / 2⌋ % 4096

/-- R81, R6 and R8: the slots and the clock take every real number (log entry 2). Any sequence of real numbers is a table
that `Config.reals` can be, the quotient and the range check of a frequency are those of the real formula, and
the rational operands alone show every behaviour: for every real clock and frequency, and whatever the model's
own clock, a rational operand has the same quotient and the same answer of the range check, and for every real
phase an operand has the same word. -/
def Obligations.RationalSlotsLoseNoBehaviour : Prop :=
  (∀ f : Nat → ℝ, ∃ t : RealTable, t.value = f) ∧
  (∀ refclk F : Hertz, freqQuotient refclk F = realQuotient refclk.value F.value ∧
    (inRange refclk F = true ↔ 0 ≤ F.value ∧ F.value < refclk.value)) ∧
  (∀ (refclk : Hertz) (R F : ℝ), 0 < refclk.value → 0 < R → ∃ q : Rat,
    freqQuotient refclk (.rat q) = realQuotient R F ∧ (inRange refclk (.rat q) = true ↔ 0 ≤ F ∧ F < R)) ∧
  (∀ P : ℝ, ∃ a : Angle, ((phaseWord a).toNat : Int) = realPhase P)

/-! ## The whole machine -/

/-- R34 and R250: the state after power-on. -/
def Obligations.PowerOnState : Prop :=
  State.reset.fsm = .uninit ∧ State.reset.busy = false ∧ State.reset.uprog = [] ∧ State.reset.wcount = 0 ∧
  State.reset.resp = .none ∧ State.reset.ctrl &&& ~~~namedBits = 0 ∧
  State.reset.rx = ⟨.unknown, .unknown, .unknown, .unknown, .unknown, .unknown⟩

/-- The invariant holds after power-on. -/
def Obligations.InvariantAtPowerOn : Prop := State.reset.Inv

/-- The invariant is kept by every step, from every state that meets it. -/
def Obligations.StepKeepsTheInvariant : Prop :=
  ∀ s t : State, s.Inv → step s = .next t → t.Inv

/-- R6: no command and no step changes a parameter. -/
def Obligations.ParametersNeverChange : Prop :=
  (∀ (i : Instr) (s t : State), exec i s = .next t → t.params = s.params) ∧
  (∀ s t : State, step s = .next t → t.params = s.params)

/-- R196: the transitions of `fsm`. -/
def Obligations.FsmTransitions : Prop :=
  (∀ s t : State, step s = .next t → t.fsm = .uninit → s.fsm = .uninit) ∧
  (∀ (s : State) (c : Command) (rest : List Command), s.busy = false → s.cmds = c :: rest →
    ∃ t, exec .init s = .next t ∧ t.fsm = .reconf) ∧
  (∀ (s : State) (c : Command) (rest : List Command) (r : Reg) (w : Wave), s.Ready c rest → s.admits c.F →
    ∃ t, exec (.apply r w) s = .next t ∧ t.fsm = .reconf) ∧
  (∀ (i : Instr) (s t : State), i.isCommand = true → i ≠ .init → (∀ r w, i ≠ .apply r w) →
    exec i s = .next t → t.fsm = s.fsm) ∧
  (∀ s t : State, s.Inv → s.busy = true → step s = .next t → t.fsm ≠ s.fsm →
    s.fsm = .reconf ∧ t.fsm = .idle ∧ t.busy = false ∧ t.resp = .ok) ∧
  (∀ (s t : State) (e : TransportError) (rest : List TxResult), s.Answered (.err e) rest → step s = .next t → t.fsm = s.fsm) ∧
  (∀ (s t : State) (r : RefuseReason) (rest : List Command), s.event = .refuse r rest → step s = .next t → t.fsm = s.fsm) ∧
  (∀ (i : Instr) (s t : State), i.isCommand = true → i ≠ .init → s.fsm = .uninit → exec i s = .next t → t.fsm = .uninit) ∧
  (∀ (s t : State) (c : Command) (rest : List Command) (r : Reg) (w : Wave),
    s.cmds = c :: rest → ¬s.admits c.F → exec (.apply r w) s = .next t → t.fsm = s.fsm)

/-- R22, R190 and R195: the sleep bits are written by SETBIT (R22), and by INIT's LOAD of CTRL_INIT (R190, R195), and
by nothing else. -/
def Obligations.SleepBitsChangeOnlyBySetbitAndInit : Prop :=
  ∀ s t : State, s.Inv → step s = .next t →
    (∀ c rest, s.busy = false → s.cmds = c :: rest → c.hdr ≠ encode .init ∧ ∀ f v, c.hdr ≠ encode (.setbit f v)) →
    getFlag t.ctrl .sleep1 = getFlag s.ctrl .sleep1 ∧ getFlag t.ctrl .sleep12 = getFlag s.ctrl .sleep12

/-- R40 and R200: nothing in the block reads the receiver view or the record of transmits: two machines that differ
only there step alike. -/
def Obligations.BlockNeverReadsTheDevice : Prop :=
  ∀ (s t : State) (x : Rx) (l : List Sent), step s = .next t →
    ∃ (x' : Rx) (l' : List Sent), step { s with rx := x, log := l } = .next { t with rx := x', log := l' }

/-- R92: every frequency word the block sends is taken in two-half mode: when one completes, the device's last
control word has B28 = 1, and the word is the first half after it or the second half to the same register. -/
def Obligations.FrequencyWordsTakenInTwoHalfMode : Prop :=
  ∀ (s : State) (res : TxResult) (rest : List TxResult) (d : Half), s.Inv → s.Answered res rest →
    (decodeWire s.txWord = .freq0Write d →
      s.rx.loadMode = true ∧ (s.rx.pend = .none ∨ ∃ d', s.rx.pend = .lo .r0 d')) ∧
    (decodeWire s.txWord = .freq1Write d →
      s.rx.loadMode = true ∧ (s.rx.pend = .none ∨ ∃ d', s.rx.pend = .lo .r1 d'))

/-- R90 and U9: in every state that meets the invariant, a phase word in flight has bit 12 clear, and a control word
in flight is the cache as it stands. -/
def Obligations.WordsInFlightAreWellFormed : Prop :=
  ∀ s : State, s.Inv → s.busy = true →
    (decodeWire s.txWord).wf = true ∧ (s.txWord.extractLsb' 14 2 = 0b00#2 → s.txWord = s.ctrl)
end

