-- ==== Sys2Proof/Laws/Conversions.lean ====
section
/-! SUPPORT. The real numbers operands stand for (R81), and what each operand conversion computes (R130 to R137), as a number. -/

namespace Sys2Proof

/-! ## Real numbers -/

@[simp] theorem Hertz.value_rat (q : Rat) : (Hertz.rat q).value = (q : ℝ) := rfl

@[simp] theorem Hertz.value_real (n : Nat) : (Hertz.real n).value = Config.reals.value n := rfl

@[simp] theorem Angle.value_lit (a : AngleLit) : (Angle.lit a).value = (a.rad : ℝ) + (a.piMul : ℝ) * Real.pi := rfl

/-- The comparison of two frequencies is that of the real numbers they stand for. -/
theorem Hertz.lt_iff (a b : Hertz) : a.lt b = true ↔ a.value < b.value := by
  cases a <;> cases b <;> first
    | exact Config.reals.less_iff _ _
    | (simp only [Hertz.lt, Hertz.value_rat, decide_eq_true_eq]; exact Rat.cast_lt.symm)

/-- Whatever the real numbers are, there is their table: `Config.reals` can be any sequence of real numbers. -/
theorem RealTable.exists_of_values (f : Nat → ℝ) : ∃ t : RealTable, t.value = f := by
  classical
  exact ⟨{ value := f
           less := fun a b => decide (a.valueIn f < b.valueIn f)
           quotient := fun refclk F => ⌊F.valueIn f * 2 ^ 28 / refclk.valueIn f⌋
           phase := fun n => ⌊f n * 2048 / Real.pi + 1 / 2⌋
           less_iff := fun _ _ => decide_eq_true_iff
           quotient_eq := fun _ _ => rfl
           phase_eq := fun _ => rfl }, rfl⟩

end Sys2Proof

namespace Sys2Proof.Machine

/-! ## Frequency -/

/-- R133: the range check. -/
theorem inRange_iff (refclk F : Hertz) : inRange refclk F = true ↔ 0 ≤ F.value ∧ F.value < refclk.value := by
  rw [inRange, Bool.and_eq_true, Bool.not_eq_true', ← Bool.not_eq_true, Hertz.lt_iff, Hertz.lt_iff, Hertz.value_rat,
    Rat.cast_zero, not_lt]

/-- R130: the quotient is the floor of the real number it stands for. -/
theorem freqQuotient_eq_floor (refclk F : Hertz) :
    freqQuotient refclk F = ⌊F.value * 2 ^ 28 / refclk.value⌋ := by
  cases refclk <;> cases F <;> first
    | exact Config.reals.quotient_eq _ _
    | (rw [freqQuotient, ← Rat.floor_cast (α := ℝ)]; push_cast; rfl)

/-- R131: `w32(F)` is the quotient modulo 2^32. -/
theorem freqW32_toNat (refclk F : Hertz) : ((freqW32 refclk F).toNat : Int) = freqQuotient refclk F % 2 ^ 32 := by
  rw [freqW32, BitVec.toNat_ofInt, Int.toNat_of_nonneg (Int.emod_nonneg _ (by norm_num))]
  norm_num

/-- R132: `lo(F)`. -/
theorem freqLo_toNat (refclk F : Hertz) : (freqLo refclk F).toNat = (freqW32 refclk F).toNat % 2 ^ 14 := by
  simp [freqLo, BitVec.extractLsb'_toNat]

/-- R132: `hi(F)`. -/
theorem freqHi_toNat (refclk F : Hertz) : (freqHi refclk F).toNat = (freqW32 refclk F).toNat / 2 ^ 14 % 2 ^ 14 := by
  simp [freqHi, BitVec.extractLsb'_toNat, Nat.shiftRight_eq_div_pow]

/-- R132: `FreqWord28(F)`, the high half over the low half. -/
theorem freqWord28_toNat (refclk F : Hertz) :
    (freqWord28 refclk F).toNat = (freqW32 refclk F).toNat % 2 ^ 28 := by
  rw [freqWord28, BitVec.toNat_append, freqLo_toNat, freqHi_toNat, Nat.shiftLeft_eq, Nat.mul_comm,
    ← Nat.two_pow_add_eq_or_of_lt (Nat.mod_lt _ (by norm_num))]
  omega

/-! ## Phase -/

/-- The length chosen decides the operand. -/
theorem phaseLength_decided (a : AngleLit) : PhaseDecided a (phaseLength a) := by
  unfold phaseLength
  split
  · assumption
  · split
    · assumption
    · exact Nat.find_spec _

/-- R135: `phaseIndex` is the floor of the real number it stands for. -/
theorem phaseIndex_eq_floor (a : Angle) : phaseIndex a = ⌊a.value * 2048 / Real.pi + 1 / 2⌋ := by
  cases a with
  | real n => exact Config.reals.phase_eq n
  | lit a =>
    have h := phaseLength_decided a
    have e : (Angle.lit a).value * 2048 / Real.pi + 1 / 2 = phaseReal a := by
      have := Real.pi_pos
      rw [Angle.value_lit, phaseReal]
      field_simp
    have e1 : ⌊phaseLow a (phaseLength a)⌋ ≤ ⌊phaseReal a⌋ := by
      rw [← Rat.floor_cast (α := ℝ)]
      exact Int.floor_le_floor (phaseLow_le _ _)
    have e2 : ⌊phaseReal a⌋ ≤ ⌊phaseHigh a (phaseLength a)⌋ := by
      rw [← Rat.floor_cast (α := ℝ)]
      exact Int.floor_le_floor (le_phaseHigh _ _)
    rw [PhaseDecided] at h
    rw [e, phaseIndex]
    omega

/-- R135: `PhaseWord(P)` is the index modulo 4096. -/
theorem phaseWord_toNat (a : Angle) : ((phaseWord a).toNat : Int) = phaseIndex a % 4096 := by
  rw [phaseWord, BitVec.toNat_ofInt, Int.toNat_of_nonneg (Int.emod_nonneg _ (by norm_num))]
  norm_num

end Sys2Proof.Machine
end

