-- ==== Sys2Proof/Laws/Flags.lean ====
section
/-! SUPPORT. Laws of the flag operations (Machine/Flags.lean). -/

namespace Sys2Proof.Machine

/-- Two flags never share a bit (R22). -/
theorem fieldPos_injective {f g : Field} (h : fieldPos f = fieldPos g) : f = g := by
  cases f <;> cases g <;> first | rfl | cases h

theorem fieldPos_lt (f : Field) : fieldPos f < 16 := by cases f <;> decide

/-- A flag reads as it was written, and every other flag as before. -/
@[simp] theorem getFlag_setFlag (c : Word) (f g : Field) (b : Bool) :
    getFlag (setFlag c f b) g = if g = f then b else getFlag c g := by
  have hf := fieldPos_lt f
  have hg := fieldPos_lt g
  have hne : g ≠ f → fieldPos g ≠ fieldPos f := fun h e => h (fieldPos_injective e)
  simp only [getFlag, setFlag, BitVec.getLsbD_or, BitVec.getLsbD_and, BitVec.getLsbD_not,
    BitVec.getLsbD_shiftLeft, BitVec.getLsbD_setWidth, BitVec.getLsbD_ofBool]
  by_cases h : g = f
  · subst h
    simp [hf]
  · have := hne h
    have h1 : ¬(fieldPos g - fieldPos f = 0 ∧ ¬fieldPos g < fieldPos f) := by omega
    rcases Nat.lt_or_ge (fieldPos g) (fieldPos f) with hlt | hge
    · simp [h, hg, hlt]
    · have h2 : fieldPos g - fieldPos f ≠ 0 := by omega
      simp [h, hg, h2]

/-- A flag write leaves the unnamed bits alone (R23). -/
@[simp] theorem setFlag_unnamed (c : Word) (f : Field) (b : Bool) :
    setFlag c f b &&& ~~~namedBits = c &&& ~~~namedBits := by
  have h1 : ~~~((1 : Word) <<< fieldPos f) &&& ~~~namedBits = ~~~namedBits := by cases f <;> rfl
  have h2 : ((BitVec.ofBool b).setWidth 16 <<< fieldPos f) &&& ~~~namedBits = 0#16 := by
    cases f <;> cases b <;> rfl
  rw [setFlag, BitVec.and_comm, BitVec.and_or_distrib_left, BitVec.and_comm, BitVec.and_assoc, h1,
    BitVec.and_comm (~~~namedBits), h2, BitVec.or_zero]

/-- A load leaves the unnamed bits 0 (R23). -/
@[simp] theorem loadCtrl_unnamed (c : Word) : loadCtrl c &&& ~~~namedBits = 0 := by
  rw [loadCtrl, BitVec.and_assoc, show namedBits &&& ~~~namedBits = 0#16 from rfl]
  exact BitVec.and_zero

/-- A load of a word clear in the unnamed bits is that word (R195 under R6). -/
theorem loadCtrl_of_unnamed {c : Word} (h : c &&& ~~~namedBits = 0) : loadCtrl c = c := by
  have e : (c &&& namedBits) ||| (c &&& ~~~namedBits) = c := by
    rw [← BitVec.and_or_distrib_left, show namedBits ||| ~~~namedBits = BitVec.allOnes 16 from rfl,
      BitVec.and_allOnes]
  rw [h] at e
  exact (BitVec.or_zero).symm.trans e

/-- The control word carries every flag of the cache (R88). -/
@[simp] theorem getFlag_ctrlWord (c : Word) (f : Field) : getFlag (ctrlWord c) f = getFlag c f := by
  simp only [getFlag, ctrlWord, packCtrl, BitVec.getLsbD_append, BitVec.getLsbD_extractLsb']
  cases f <;> simp [fieldPos]

/-- The control word of a cache clear in the unnamed bits is the cache (R88). -/
theorem ctrlWord_of_unnamed {c : Word} (h : c &&& ~~~namedBits = 0) : ctrlWord c = c := by
  have h15 := congrArg (fun x => BitVec.getLsbD x 15) h
  have h14 := congrArg (fun x => BitVec.getLsbD x 14) h
  simp only [namedBits, BitVec.getLsbD_and, BitVec.getLsbD_not] at h15 h14
  simp at h15 h14
  apply BitVec.eq_of_getLsbD_eq
  intro i hi
  simp only [ctrlWord, packCtrl, BitVec.getLsbD_append, BitVec.getLsbD_extractLsb']
  by_cases hlt : i < 14
  · simp [hlt]
  · have : i = 14 ∨ i = 15 := by omega
    rcases this with rfl | rfl
    · simpa using h14
    · simpa using h15

end Sys2Proof.Machine
end

