-- ==== Sys2Proof/Laws/State.lean ====
section
/-! SUPPORT. One lemma per field per state update of Machine/Ops.lean, true by rfl, so that no later proof
unfolds a record update. -/

namespace Sys2Proof.Machine

@[simp] theorem complete_params (s : State) : s.complete.params = s.params := rfl
@[simp] theorem complete_ctrl (s : State) : s.complete.ctrl = s.ctrl := rfl
@[simp] theorem complete_fsm (s : State) : s.complete.fsm = s.fsm := rfl
@[simp] theorem complete_busy (s : State) : s.complete.busy = false := rfl
@[simp] theorem complete_uprog (s : State) : s.complete.uprog = [] := rfl
@[simp] theorem complete_wcount (s : State) : s.complete.wcount = 0 := rfl
@[simp] theorem complete_resp (s : State) : s.complete.resp = .ok := rfl
@[simp] theorem complete_txWord (s : State) : s.complete.txWord = s.txWord := rfl
@[simp] theorem complete_txReq (s : State) : s.complete.txReq = s.txReq := rfl
@[simp] theorem complete_cmds (s : State) : s.complete.cmds = s.cmds := rfl
@[simp] theorem complete_answers (s : State) : s.complete.answers = s.answers := rfl
@[simp] theorem complete_rx (s : State) : s.complete.rx = s.rx := rfl
@[simp] theorem complete_log (s : State) : s.complete.log = s.log := rfl

@[simp] theorem present_params (s : State) (w : Word) (ops : List MicroOp) : (s.present w ops).params = s.params := rfl
@[simp] theorem present_ctrl (s : State) (w : Word) (ops : List MicroOp) : (s.present w ops).ctrl = s.ctrl := rfl
@[simp] theorem present_fsm (s : State) (w : Word) (ops : List MicroOp) : (s.present w ops).fsm = s.fsm := rfl
@[simp] theorem present_busy (s : State) (w : Word) (ops : List MicroOp) : (s.present w ops).busy = s.busy := rfl
@[simp] theorem present_uprog (s : State) (w : Word) (ops : List MicroOp) : (s.present w ops).uprog = ops := rfl
@[simp] theorem present_wcount (s : State) (w : Word) (ops : List MicroOp) : (s.present w ops).wcount = s.wcount := rfl
@[simp] theorem present_resp (s : State) (w : Word) (ops : List MicroOp) : (s.present w ops).resp = s.resp := rfl
@[simp] theorem present_txWord (s : State) (w : Word) (ops : List MicroOp) : (s.present w ops).txWord = w := rfl
@[simp] theorem present_txReq (s : State) (w : Word) (ops : List MicroOp) : (s.present w ops).txReq = true := rfl
@[simp] theorem present_cmds (s : State) (w : Word) (ops : List MicroOp) : (s.present w ops).cmds = s.cmds := rfl
@[simp] theorem present_answers (s : State) (w : Word) (ops : List MicroOp) : (s.present w ops).answers = s.answers := rfl
@[simp] theorem present_rx (s : State) (w : Word) (ops : List MicroOp) : (s.present w ops).rx = s.rx := rfl
@[simp] theorem present_log (s : State) (w : Word) (ops : List MicroOp) : (s.present w ops).log = s.log := rfl

@[simp] theorem refuse_params (s : State) (r : RefuseReason) : (s.refuse r).params = s.params := rfl
@[simp] theorem refuse_ctrl (s : State) (r : RefuseReason) : (s.refuse r).ctrl = s.ctrl := rfl
@[simp] theorem refuse_fsm (s : State) (r : RefuseReason) : (s.refuse r).fsm = s.fsm := rfl
@[simp] theorem refuse_busy (s : State) (r : RefuseReason) : (s.refuse r).busy = s.busy := rfl
@[simp] theorem refuse_uprog (s : State) (r : RefuseReason) : (s.refuse r).uprog = s.uprog := rfl
@[simp] theorem refuse_wcount (s : State) (r : RefuseReason) : (s.refuse r).wcount = s.wcount := rfl
@[simp] theorem refuse_resp (s : State) (r : RefuseReason) : (s.refuse r).resp = .refused r := rfl
@[simp] theorem refuse_txWord (s : State) (r : RefuseReason) : (s.refuse r).txWord = s.txWord := rfl
@[simp] theorem refuse_txReq (s : State) (r : RefuseReason) : (s.refuse r).txReq = s.txReq := rfl
@[simp] theorem refuse_cmds (s : State) (r : RefuseReason) : (s.refuse r).cmds = s.cmds := rfl
@[simp] theorem refuse_answers (s : State) (r : RefuseReason) : (s.refuse r).answers = s.answers := rfl
@[simp] theorem refuse_rx (s : State) (r : RefuseReason) : (s.refuse r).rx = s.rx := rfl
@[simp] theorem refuse_log (s : State) (r : RefuseReason) : (s.refuse r).log = s.log := rfl

@[simp] theorem abort_params (s : State) (w : Word) (e : TransportError) : (s.abort w e).params = s.params := rfl
@[simp] theorem abort_ctrl (s : State) (w : Word) (e : TransportError) : (s.abort w e).ctrl = s.ctrl := rfl
@[simp] theorem abort_fsm (s : State) (w : Word) (e : TransportError) : (s.abort w e).fsm = s.fsm := rfl
@[simp] theorem abort_busy (s : State) (w : Word) (e : TransportError) : (s.abort w e).busy = false := rfl
@[simp] theorem abort_uprog (s : State) (w : Word) (e : TransportError) : (s.abort w e).uprog = [] := rfl
@[simp] theorem abort_wcount (s : State) (w : Word) (e : TransportError) : (s.abort w e).wcount = 0 := rfl
@[simp] theorem abort_resp (s : State) (w : Word) (e : TransportError) : (s.abort w e).resp = .transportError (s.wcount + 1) w e := rfl
@[simp] theorem abort_txWord (s : State) (w : Word) (e : TransportError) : (s.abort w e).txWord = s.txWord := rfl
@[simp] theorem abort_txReq (s : State) (w : Word) (e : TransportError) : (s.abort w e).txReq = s.txReq := rfl
@[simp] theorem abort_cmds (s : State) (w : Word) (e : TransportError) : (s.abort w e).cmds = s.cmds := rfl
@[simp] theorem abort_answers (s : State) (w : Word) (e : TransportError) : (s.abort w e).answers = s.answers := rfl
@[simp] theorem abort_rx (s : State) (w : Word) (e : TransportError) : (s.abort w e).rx = s.rx := rfl
@[simp] theorem abort_log (s : State) (w : Word) (e : TransportError) : (s.abort w e).log = s.log := rfl

@[simp] theorem take_params (s : State) (rest : List Command) : (s.take rest).params = s.params := rfl
@[simp] theorem take_ctrl (s : State) (rest : List Command) : (s.take rest).ctrl = s.ctrl := rfl
@[simp] theorem take_fsm (s : State) (rest : List Command) : (s.take rest).fsm = s.fsm := rfl
@[simp] theorem take_busy (s : State) (rest : List Command) : (s.take rest).busy = s.busy := rfl
@[simp] theorem take_uprog (s : State) (rest : List Command) : (s.take rest).uprog = s.uprog := rfl
@[simp] theorem take_wcount (s : State) (rest : List Command) : (s.take rest).wcount = s.wcount := rfl
@[simp] theorem take_resp (s : State) (rest : List Command) : (s.take rest).resp = s.resp := rfl
@[simp] theorem take_txWord (s : State) (rest : List Command) : (s.take rest).txWord = s.txWord := rfl
@[simp] theorem take_txReq (s : State) (rest : List Command) : (s.take rest).txReq = s.txReq := rfl
@[simp] theorem take_cmds (s : State) (rest : List Command) : (s.take rest).cmds = rest := rfl
@[simp] theorem take_answers (s : State) (rest : List Command) : (s.take rest).answers = s.answers := rfl
@[simp] theorem take_rx (s : State) (rest : List Command) : (s.take rest).rx = s.rx := rfl
@[simp] theorem take_log (s : State) (rest : List Command) : (s.take rest).log = s.log := rfl

@[simp] theorem sent_params (s : State) (w : Word) (res : TxResult) (rest : List TxResult) (rx : Rx) : (s.sent w res rest rx).params = s.params := rfl
@[simp] theorem sent_ctrl (s : State) (w : Word) (res : TxResult) (rest : List TxResult) (rx : Rx) : (s.sent w res rest rx).ctrl = s.ctrl := rfl
@[simp] theorem sent_fsm (s : State) (w : Word) (res : TxResult) (rest : List TxResult) (rx : Rx) : (s.sent w res rest rx).fsm = s.fsm := rfl
@[simp] theorem sent_busy (s : State) (w : Word) (res : TxResult) (rest : List TxResult) (rx : Rx) : (s.sent w res rest rx).busy = s.busy := rfl
@[simp] theorem sent_uprog (s : State) (w : Word) (res : TxResult) (rest : List TxResult) (rx : Rx) : (s.sent w res rest rx).uprog = s.uprog := rfl
@[simp] theorem sent_wcount (s : State) (w : Word) (res : TxResult) (rest : List TxResult) (rx : Rx) : (s.sent w res rest rx).wcount = s.wcount := rfl
@[simp] theorem sent_resp (s : State) (w : Word) (res : TxResult) (rest : List TxResult) (rx : Rx) : (s.sent w res rest rx).resp = s.resp := rfl
@[simp] theorem sent_txWord (s : State) (w : Word) (res : TxResult) (rest : List TxResult) (rx : Rx) : (s.sent w res rest rx).txWord = s.txWord := rfl
@[simp] theorem sent_txReq (s : State) (w : Word) (res : TxResult) (rest : List TxResult) (rx : Rx) : (s.sent w res rest rx).txReq = false := rfl
@[simp] theorem sent_cmds (s : State) (w : Word) (res : TxResult) (rest : List TxResult) (rx : Rx) : (s.sent w res rest rx).cmds = s.cmds := rfl
@[simp] theorem sent_answers (s : State) (w : Word) (res : TxResult) (rest : List TxResult) (rx : Rx) : (s.sent w res rest rx).answers = rest := rfl
@[simp] theorem sent_rx (s : State) (w : Word) (res : TxResult) (rest : List TxResult) (rx : Rx) : (s.sent w res rest rx).rx = rx := rfl
@[simp] theorem sent_log (s : State) (w : Word) (res : TxResult) (rest : List TxResult) (rx : Rx) : (s.sent w res rest rx).log = s.log ++ [⟨w, res⟩] := rfl

end Sys2Proof.Machine
end

