-- ==== Sys2Proof/Laws/Words.lean ====
section
/-! SUPPORT. The bits of the words the encoder packs (R88 to R90). -/

namespace Sys2Proof

/-- R88: bit by bit, a control word is its payload under the tag 00. -/
theorem packCtrl_bit (c : BitVec 14) (i : Nat) :
    (packCtrl c).getLsbD i = if i < 14 then c.getLsbD i else (0b00#2).getLsbD (i - 14) :=
  BitVec.getLsbD_append

/-- R89: bit by bit, a frequency word is its half under the tag of FREQr. -/
theorem freqWordTagged_bit (r : Reg) (d : Half) (i : Nat) :
    (freqWordTagged r d).getLsbD i = if i < 14 then d.getLsbD i else (freqTag r).getLsbD (i - 14) :=
  BitVec.getLsbD_append

/-- R90: bit by bit, a phase word is its payload under bit 12, the register and the tag 11. -/
theorem packPhase_bit (r : Reg) (z : Bool) (d : PhaseWord) (i : Nat) :
    (packPhase r z d).getLsbD i =
      if i < 12 then d.getLsbD i
      else ((0b11#2) ++ BitVec.ofBool r.bit ++ BitVec.ofBool z).getLsbD (i - 12) :=
  BitVec.getLsbD_append

theorem packCtrl_payload (c : BitVec 14) : (packCtrl c).extractLsb' 0 14 = c := by
  apply BitVec.eq_of_getLsbD_eq
  intro i hi
  simp only [BitVec.getLsbD_extractLsb', packCtrl_bit, hi, Nat.zero_add, decide_true, Bool.true_and, if_true]

theorem freqWordTagged_payload (r : Reg) (d : Half) : (freqWordTagged r d).extractLsb' 0 14 = d := by
  apply BitVec.eq_of_getLsbD_eq
  intro i hi
  simp only [BitVec.getLsbD_extractLsb', freqWordTagged_bit, hi, Nat.zero_add, decide_true, Bool.true_and, if_true]

theorem packPhase_payload (r : Reg) (z : Bool) (d : PhaseWord) : (packPhase r z d).extractLsb' 0 12 = d := by
  apply BitVec.eq_of_getLsbD_eq
  intro i hi
  simp only [BitVec.getLsbD_extractLsb', packPhase_bit, hi, Nat.zero_add, decide_true, Bool.true_and, if_true]

/-- The device's decoder answers a wire word, never a command (R91). -/
theorem decodeWire_isCommand (w : Word) : (decodeWire w).isCommand = false := by
  unfold decodeWire; split <;> rfl

/-- A word is a tag over its low fourteen bits, whatever the tag's bits are named by. -/
theorem word_of_tag (w : Word) (f : Nat → Bool) (h14 : w.getLsbD 14 = f 0) (h15 : w.getLsbD 15 = f 1) (i : Nat)
    (hi : i < 16) : (if i < 14 then (w.extractLsb' 0 14).getLsbD i else f (i - 14)) = w.getLsbD i := by
  split
  · next h => simp [h]
  · next h =>
    have : i = 14 ∨ i = 15 := by omega
    rcases this with rfl | rfl
    · exact h14.symm
    · exact h15.symm

/-- A phase word is its top four bits over its payload. -/
theorem packPhase_of_word (r : Reg) (w : Word) (h15 : w.getLsbD 15 = true) (h14 : w.getLsbD 14 = true)
    (h13 : w.getLsbD 13 = r.bit) : packPhase r (w.getLsbD 12) (w.extractLsb' 0 12) = w := by
  apply BitVec.eq_of_getLsbD_eq
  intro i hi
  rw [packPhase_bit]
  split
  · next h => simp [h]
  · next h =>
    have : i = 12 ∨ i = 13 ∨ i = 14 ∨ i = 15 := by omega
    rcases this with rfl | rfl | rfl | rfl
    · cases r <;> cases h12 : w.getLsbD 12 <;> rfl
    · rw [h13]; cases r <;> cases w.getLsbD 12 <;> rfl
    · rw [h14]; cases r <;> cases w.getLsbD 12 <;> rfl
    · rw [h15]; cases r <;> cases w.getLsbD 12 <;> rfl

/-- A wire word is the word of what the device reads from it (R91). -/
theorem encode_decodeWire (w : Word) : encode (decodeWire w) = w := by
  unfold decodeWire
  split
  · next h15 h14 =>
    apply BitVec.eq_of_getLsbD_eq
    intro i hi
    rw [encode, packCtrl_bit]
    exact word_of_tag w (0b00#2).getLsbD h14 h15 i hi
  · next h15 h14 =>
    apply BitVec.eq_of_getLsbD_eq
    intro i hi
    rw [encode, freqWordTagged_bit]
    exact word_of_tag w (freqTag .r0).getLsbD h14 h15 i hi
  · next h15 h14 =>
    apply BitVec.eq_of_getLsbD_eq
    intro i hi
    rw [encode, freqWordTagged_bit]
    exact word_of_tag w (freqTag .r1).getLsbD h14 h15 i hi
  · next h15 h14 h13 => exact packPhase_of_word .r0 w h15 h14 h13
  · next h15 h14 h13 => exact packPhase_of_word .r1 w h15 h14 h13

end Sys2Proof
end

