-- ==== Sys2Proof/Laws/Ops.lean ====
section
/-! SUPPORT. What each shared operation of Machine/Ops.lean can do, said once: the micro-operation engine, the
accept step, the transmit-completion step and the step itself. -/

namespace Sys2Proof.Machine

/-! ## The micro-operation engine -/

@[simp] theorem runInternal_nil (s : State) : runInternal s [] = s.complete := rfl

@[simp] theorem runInternal_set (s : State) (f : Field) (b : Bool) (ops : List MicroOp) :
    runInternal s (.set f b :: ops) = runInternal { s with ctrl := setFlag s.ctrl f b } ops := rfl

@[simp] theorem runInternal_load (s : State) (c : Word) (ops : List MicroOp) :
    runInternal s (.load c :: ops) = runInternal { s with ctrl := loadCtrl c } ops := rfl

@[simp] theorem runInternal_fsm (s : State) (t : FsmTarget) (ops : List MicroOp) :
    runInternal s (.fsm t :: ops) = runInternal { s with fsm := t.toFsm } ops := rfl

@[simp] theorem runInternal_emitCtrl (s : State) (ops : List MicroOp) :
    runInternal s (.emitCtrl :: ops) = s.present (ctrlWord s.ctrl) (.emitCtrl :: ops) := rfl

@[simp] theorem runInternal_emit (s : State) (w : Word) (ops : List MicroOp) :
    runInternal s (.emit w :: ops) = s.present w (.emit w :: ops) := rfl

/-- The induction every fact about the engine goes by: SET, LOAD and FSM one at a time, then an end or an
emit. -/
theorem runInternal_induct {P : State → List MicroOp → State → Prop}
    (nil : ∀ s, P s [] s.complete)
    (set : ∀ s f b ops, P { s with ctrl := setFlag s.ctrl f b } ops (runInternal { s with ctrl := setFlag s.ctrl f b } ops) →
      P s (.set f b :: ops) (runInternal { s with ctrl := setFlag s.ctrl f b } ops))
    (load : ∀ s c ops, P { s with ctrl := loadCtrl c } ops (runInternal { s with ctrl := loadCtrl c } ops) →
      P s (.load c :: ops) (runInternal { s with ctrl := loadCtrl c } ops))
    (fsm : ∀ s t ops, P { s with fsm := t.toFsm } ops (runInternal { s with fsm := t.toFsm } ops) →
      P s (.fsm t :: ops) (runInternal { s with fsm := t.toFsm } ops))
    (emitCtrl : ∀ s ops, P s (.emitCtrl :: ops) (s.present (ctrlWord s.ctrl) (.emitCtrl :: ops)))
    (emit : ∀ s w ops, P s (.emit w :: ops) (s.present w (.emit w :: ops)))
    (s : State) (ops : List MicroOp) : P s ops (runInternal s ops) := by
  induction ops generalizing s with
  | nil => exact nil s
  | cons op ops ih =>
    cases op with
    | set f b => exact set s f b ops (ih _)
    | load c => exact load s c ops (ih _)
    | fsm t => exact fsm s t ops (ih _)
    | emitCtrl => exact emitCtrl s ops
    | emit w => exact emit s w ops

/-- What the engine never touches: the parameters, the ports' inputs and the observations. -/
theorem runInternal_frame (s : State) (ops : List MicroOp) :
    (runInternal s ops).params = s.params ∧ (runInternal s ops).cmds = s.cmds ∧
    (runInternal s ops).answers = s.answers ∧ (runInternal s ops).rx = s.rx ∧ (runInternal s ops).log = s.log :=
  runInternal_induct (P := fun s _ t => t.params = s.params ∧ t.cmds = s.cmds ∧ t.answers = s.answers ∧
      t.rx = s.rx ∧ t.log = s.log)
    (fun _ => ⟨rfl, rfl, rfl, rfl, rfl⟩) (fun _ _ _ _ h => h) (fun _ _ _ h => h) (fun _ _ _ h => h)
    (fun _ _ => ⟨rfl, rfl, rfl, rfl, rfl⟩) (fun _ _ _ => ⟨rfl, rfl, rfl, rfl, rfl⟩) s ops

@[simp] theorem runInternal_params (s : State) (ops : List MicroOp) : (runInternal s ops).params = s.params :=
  (runInternal_frame s ops).1

@[simp] theorem runInternal_cmds (s : State) (ops : List MicroOp) : (runInternal s ops).cmds = s.cmds :=
  (runInternal_frame s ops).2.1

@[simp] theorem runInternal_answers (s : State) (ops : List MicroOp) : (runInternal s ops).answers = s.answers :=
  (runInternal_frame s ops).2.2.1

@[simp] theorem runInternal_rx (s : State) (ops : List MicroOp) : (runInternal s ops).rx = s.rx :=
  (runInternal_frame s ops).2.2.2.1

@[simp] theorem runInternal_log (s : State) (ops : List MicroOp) : (runInternal s ops).log = s.log :=
  (runInternal_frame s ops).2.2.2.2

/-- The word of an emit, with the cache it would be made from. -/
def emitWord (c : Word) : MicroOp → Option Word
  | .emitCtrl => some (ctrlWord c)
  | .emit w => some w
  | .set _ _ | .load _ | .fsm _ => none

/-- Where the engine stops: at the end of the program, complete, or at an emit that is presented. -/
theorem runInternal_stops (s : State) (ops : List MicroOp) :
    ((runInternal s ops).uprog = [] ∧ (runInternal s ops).busy = false ∧ (runInternal s ops).wcount = 0 ∧
      (runInternal s ops).resp = .ok ∧ (runInternal s ops).txReq = s.txReq ∧ (runInternal s ops).txWord = s.txWord) ∨
    ((∃ op rest, (runInternal s ops).uprog = op :: rest ∧
        emitWord (runInternal s ops).ctrl op = some (runInternal s ops).txWord) ∧
      (runInternal s ops).uprog <:+ ops ∧ (runInternal s ops).busy = s.busy ∧ (runInternal s ops).txReq = true ∧
      (runInternal s ops).wcount = s.wcount ∧ (runInternal s ops).resp = s.resp) :=
  runInternal_induct (P := fun s ops t =>
      (t.uprog = [] ∧ t.busy = false ∧ t.wcount = 0 ∧ t.resp = .ok ∧ t.txReq = s.txReq ∧ t.txWord = s.txWord) ∨
      ((∃ op rest, t.uprog = op :: rest ∧ emitWord t.ctrl op = some t.txWord) ∧ t.uprog <:+ ops ∧
        t.busy = s.busy ∧ t.txReq = true ∧ t.wcount = s.wcount ∧ t.resp = s.resp))
    (fun _ => .inl ⟨rfl, rfl, rfl, rfl, rfl, rfl⟩)
    (fun _ _ _ _ h => h.imp id fun h => ⟨h.1, h.2.1.trans (List.suffix_cons _ _), h.2.2⟩)
    (fun _ _ _ h => h.imp id fun h => ⟨h.1, h.2.1.trans (List.suffix_cons _ _), h.2.2⟩)
    (fun _ _ _ h => h.imp id fun h => ⟨h.1, h.2.1.trans (List.suffix_cons _ _), h.2.2⟩)
    (fun _ _ => .inr ⟨⟨_, _, rfl, rfl⟩, List.suffix_refl _, rfl, rfl, rfl, rfl⟩)
    (fun _ _ _ => .inr ⟨⟨_, _, rfl, rfl⟩, List.suffix_refl _, rfl, rfl, rfl, rfl⟩) s ops

/-- The engine touches neither `fsm` nor the cache where no FSM, LOAD or SET runs. -/
theorem runInternal_fsm_eq (s : State) (ops : List MicroOp) (h : ∀ t, MicroOp.fsm t ∉ ops) :
    (runInternal s ops).fsm = s.fsm := by
  induction ops generalizing s with
  | nil => rfl
  | cons op ops ih =>
    have h' : ∀ t, MicroOp.fsm t ∉ ops := fun t m => h t (List.mem_cons_of_mem _ m)
    cases op with
    | set f b => exact ih _ h'
    | load c => exact ih _ h'
    | fsm t => exact absurd List.mem_cons_self (h t)
    | emitCtrl => rfl
    | emit w => rfl

/-! ## The accept step -/

theorem accept_busy {s : State} (h : s.busy = true) (check prog) : accept s check prog = .next s := by
  simp [accept, h]

theorem accept_empty {s : State} (h : s.cmds = []) (check prog) : accept s check prog = .next s := by
  simp only [accept, h]; split <;> rfl

theorem accept_refused {s : State} {c : Command} {rest : List Command} {check prog} {r : RefuseReason}
    (hb : s.busy = false) (hc : s.cmds = c :: rest) (hr : check c = some r) :
    accept s check prog = .next ((s.take rest).refuse r) := by
  simp [accept, hb, hc, hr]

theorem accept_started {s : State} {c : Command} {rest : List Command} {check prog}
    (hb : s.busy = false) (hc : s.cmds = c :: rest) (hr : check c = none) :
    accept s check prog = .next ((s.take rest).start (prog c)) := by
  simp [accept, hb, hc, hr]

/-- Everything the accept step can do (R191). -/
theorem accept_cases {s t : State} {check prog} (h : accept s check prog = .next t) :
    t = s ∨
    (∃ c rest r, s.busy = false ∧ s.cmds = c :: rest ∧ check c = some r ∧ t = (s.take rest).refuse r) ∨
    (∃ c rest, s.busy = false ∧ s.cmds = c :: rest ∧ check c = none ∧ t = (s.take rest).start (prog c)) := by
  by_cases hb : s.busy = true
  · rw [accept_busy hb] at h; cases h; exact .inl rfl
  · have hb : s.busy = false := by simpa using hb
    cases hc : s.cmds with
    | nil => rw [accept_empty hc] at h; cases h; exact .inl rfl
    | cons c rest =>
      cases hr : check c with
      | some r => rw [accept_refused hb hc hr] at h; cases h; exact .inr (.inl ⟨c, rest, r, hb, rfl, hr, rfl⟩)
      | none => rw [accept_started hb hc hr] at h; cases h; exact .inr (.inr ⟨c, rest, hb, rfl, hr, rfl⟩)

/-- The accept step always answers a next state. -/
theorem accept_next (s : State) (check prog) : ∃ t, accept s check prog = .next t := by
  unfold accept
  split
  · exact ⟨_, rfl⟩
  · split
    · exact ⟨_, rfl⟩
    · split <;> exact ⟨_, rfl⟩

theorem checkInitialised_none {s : State} (h : s.fsm ≠ .uninit) : checkInitialised s = none := by
  simp [checkInitialised, h]

theorem checkInitialised_some {s : State} (h : s.fsm = .uninit) : checkInitialised s = some .notInitialised := by
  simp [checkInitialised, h]

/-- The refusal a command can meet once its header has decoded (R191). -/
def commandCheck (s : State) (i : Instr) (c : Command) : Option RefuseReason :=
  match i with
  | .init => none
  | .setfreq _ | .apply _ _ => checkFreq s c.F
  | .setbit _ _ | .flush | .setphase _ | .selfreq _ | .selphase _ | .setwave _ | .rstassert | .rstrelease =>
    checkInitialised s
  | .ctrlWrite _ | .freq0Write _ | .freq1Write _ | .phase0Write _ _ | .phase1Write _ _ => none

/-- The micro-program of a command (R110, R111, R160 to R166, R193, R195). -/
def commandProgram (p : Params) (i : Instr) (c : Command) : List MicroOp :=
  match i with
  | .init => initProgram p
  | .setbit f v => [.set f v]
  | .flush => [.emitCtrl]
  | .setfreq r => [.set .b28 true, .emitCtrl] ++ freqEmits p.refclk r c.F
  | .setphase r => [phaseEmit r c.P]
  | .selfreq r => [.set .fsel r.bit, .emitCtrl]
  | .selphase r => [.set .psel r.bit, .emitCtrl]
  | .setwave w => waveSets w ++ [.emitCtrl]
  | .rstassert => [.set .reset true, .emitCtrl]
  | .rstrelease => [.set .reset false, .emitCtrl]
  | .apply r w => applyProgram p.refclk r c.F c.P w
  | .ctrlWrite _ | .freq0Write _ | .freq1Write _ | .phase0Write _ _ | .phase1Write _ _ => []

/-- Every command is the accept step with its check and its program (R191). -/
theorem exec_command {i : Instr} (h : i.isCommand = true) (s : State) :
    exec i s = accept s (commandCheck s i) (commandProgram s.params i) := by
  cases i <;> first | rfl | cases h

/-! ## The transmit-completion step -/

/-- Everything the transmit-completion step can do (R192). -/
theorem transmit_cases {s t : State} {w : Word} {latched lost : Rx} (h : transmit s w latched lost = .next t) :
    t = s ∨
    (∃ rest, s.busy = true ∧ s.txReq = true ∧ s.answers = .ok :: rest ∧
      t = runInternal { s.sent w .ok rest latched with wcount := s.wcount + 1 } s.uprog.tail) ∨
    (∃ e rest, s.busy = true ∧ s.txReq = true ∧ s.answers = .err e :: rest ∧
      t = (s.sent w (.err e) rest lost).abort w e) := by
  unfold transmit at h
  split at h
  · next hb =>
    rw [Bool.and_eq_true] at hb
    split at h
    · cases h; exact .inl rfl
    · next rest ha => cases h; exact .inr (.inl ⟨rest, hb.1, hb.2, ha, rfl⟩)
    · next e rest ha => cases h; exact .inr (.inr ⟨e, rest, hb.1, hb.2, ha, rfl⟩)
  · cases h; exact .inl rfl

theorem transmit_ok {s : State} {rest : List TxResult} (hb : s.busy = true) (hr : s.txReq = true)
    (ha : s.answers = .ok :: rest) (w : Word) (latched lost : Rx) :
    transmit s w latched lost =
      .next (runInternal { s.sent w .ok rest latched with wcount := s.wcount + 1 } s.uprog.tail) := by
  simp [transmit, hb, hr, ha]

theorem transmit_err {s : State} {rest : List TxResult} {e : TransportError} (hb : s.busy = true)
    (hr : s.txReq = true) (ha : s.answers = .err e :: rest) (w : Word) (latched lost : Rx) :
    transmit s w latched lost = .next ((s.sent w (.err e) rest lost).abort w e) := by
  simp [transmit, hb, hr, ha]

/-- The transmit-completion step always answers a next state. -/
theorem transmit_next (s : State) (w : Word) (latched lost : Rx) : ∃ t, transmit s w latched lost = .next t := by
  unfold transmit
  split
  · split <;> exact ⟨_, rfl⟩
  · exact ⟨_, rfl⟩

/-- Every wire word is the transmit of its own word, with what the device latches or loses (R43 to R46). -/
theorem exec_wire {i : Instr} (h : i.isCommand = false) (s : State) :
    exec i s = transmit s (encode i) (s.rx.latch i) (s.rx.lose i) := by
  cases i <;> first | rfl | cases h

/-! ## The step -/

/-- Everything a step can do (R5): wait, refuse a header, or run one instruction. -/
theorem step_cases {s t : State} (h : step s = .next t) :
    (s.event = .wait ∧ t = s) ∨
    (∃ r rest, s.event = .refuse r rest ∧ t = (s.take rest).refuse r) ∨
    (∃ i, s.event = .run i ∧ exec i s = .next t) := by
  unfold step at h
  split at h
  · next e => cases h; exact .inl ⟨e, rfl⟩
  · next r rest e => cases h; exact .inr (.inl ⟨r, rest, e, rfl⟩)
  · next i e => exact .inr (.inr ⟨i, e, h⟩)

/-- When the next event is an instruction: a command that decodes while not busy, or the answered word in
flight. -/
theorem event_run {s : State} {i : Instr} (h : s.event = .run i) :
    (∃ c rest, s.busy = false ∧ s.cmds = c :: rest ∧ decodeHeader c.hdr = .cmd i) ∨
    (∃ res rest, s.busy = true ∧ s.txReq = true ∧ s.answers = res :: rest ∧ i = decodeWire s.txWord) := by
  unfold State.event at h
  split at h
  · next hb =>
    split at h
    · next hr =>
      split at h
      · cases h
      · next res rest ha => cases h; exact .inr ⟨res, rest, hb, hr, ha, rfl⟩
    · cases h
  · next hb =>
    split at h
    · cases h
    · next c rest hc =>
      split at h
      · next i' hd => cases h; exact .inl ⟨c, rest, by simpa using hb, hc, hd⟩
      · cases h

/-- When the next event is a refusal: a header that does not decode, presented while not busy. -/
theorem event_refuse {s : State} {r : RefuseReason} {rest : List Command} (h : s.event = .refuse r rest) :
    ∃ c, s.busy = false ∧ s.cmds = c :: rest ∧ decodeHeader c.hdr = .refused r := by
  unfold State.event at h
  split at h
  · split at h
    · split at h <;> cases h
    · cases h
  · next hb =>
    split at h
    · cases h
    · next c rest' hc =>
      split at h
      · cases h
      · next r' hd => cases h; exact ⟨c, by simpa using hb, hc, hd⟩

end Sys2Proof.Machine
end

