-- ==== Sys2Proof/Laws/PerInstr.lean ====
section
/-! SUPPORT. The per-instruction family RoundTrip: an instruction is read back from its own word, a command by
the command port's decoder and a wire word by the device's, with every operand. -/

namespace Sys2Proof.Laws

/-- The word of `i` reads as `i` where `i` is read. -/
def RoundTrip.Statement (i : Instr) : Prop :=
  (i.isCommand = true → decodeHeader (encode i) = .cmd i) ∧
  (i.isCommand = false → decodeWire (encode i) = i)

namespace RoundTrip

theorem init : Statement .init := ⟨fun _ => rfl, nofun⟩
theorem setbit (f : Field) (v : Bool) : Statement (.setbit f v) :=
  ⟨fun _ => by cases f <;> cases v <;> rfl, nofun⟩
theorem flush : Statement .flush := ⟨fun _ => rfl, nofun⟩
theorem setfreq (r : Reg) : Statement (.setfreq r) := ⟨fun _ => by cases r <;> rfl, nofun⟩
theorem setphase (r : Reg) : Statement (.setphase r) := ⟨fun _ => by cases r <;> rfl, nofun⟩
theorem selfreq (r : Reg) : Statement (.selfreq r) := ⟨fun _ => by cases r <;> rfl, nofun⟩
theorem selphase (r : Reg) : Statement (.selphase r) := ⟨fun _ => by cases r <;> rfl, nofun⟩
theorem setwave (w : Wave) : Statement (.setwave w) := ⟨fun _ => by cases w <;> rfl, nofun⟩
theorem rstassert : Statement .rstassert := ⟨fun _ => rfl, nofun⟩
theorem rstrelease : Statement .rstrelease := ⟨fun _ => rfl, nofun⟩
theorem apply (r : Reg) (w : Wave) : Statement (.apply r w) :=
  ⟨fun _ => by cases r <;> cases w <;> rfl, nofun⟩

theorem ctrlWrite (c : BitVec 14) : Statement (.ctrlWrite c) := by
  refine ⟨nofun, fun _ => ?_⟩
  simp only [encode, decodeWire, packCtrl_payload, packCtrl_bit]
  rfl

theorem freq0Write (d : Half) : Statement (.freq0Write d) := by
  refine ⟨nofun, fun _ => ?_⟩
  simp only [encode, decodeWire, freqWordTagged_payload, freqWordTagged_bit]
  rfl

theorem freq1Write (d : Half) : Statement (.freq1Write d) := by
  refine ⟨nofun, fun _ => ?_⟩
  simp only [encode, decodeWire, freqWordTagged_payload, freqWordTagged_bit]
  rfl

theorem phase0Write (z : Bool) (d : PhaseWord) : Statement (.phase0Write z d) := by
  refine ⟨nofun, fun _ => ?_⟩
  simp only [encode, decodeWire, packPhase_payload, packPhase_bit]
  cases z <;> rfl

theorem phase1Write (z : Bool) (d : PhaseWord) : Statement (.phase1Write z d) := by
  refine ⟨nofun, fun _ => ?_⟩
  simp only [encode, decodeWire, packPhase_payload, packPhase_bit]
  cases z <;> rfl

end RoundTrip

end Sys2Proof.Laws
end

