-- ==== Sys2Proof/Laws/Receiver.lean ====
section
/-! SUPPORT. What each word the block sends does to the receiver view (R43 to R46), and the receiver view's
accessors after each update. -/

namespace Sys2Proof.Machine

/-! ## Accessors -/

@[simp] theorem setFreq_freq (rx : Rx) (r r' : Reg) (v : Known FreqWord) :
    (rx.setFreq r v).freq r' = if r' = r then v else rx.freq r' := by cases r <;> cases r' <;> rfl

@[simp] theorem setFreq_phase (rx : Rx) (r r' : Reg) (v : Known FreqWord) :
    (rx.setFreq r v).phase r' = rx.phase r' := by cases r <;> cases r' <;> rfl

@[simp] theorem setFreq_ctrl (rx : Rx) (r : Reg) (v : Known FreqWord) : (rx.setFreq r v).ctrl = rx.ctrl := by
  cases r <;> rfl

@[simp] theorem setFreq_pend (rx : Rx) (r : Reg) (v : Known FreqWord) : (rx.setFreq r v).pend = rx.pend := by
  cases r <;> rfl

@[simp] theorem setPhase_phase (rx : Rx) (r r' : Reg) (v : Known PhaseWord) :
    (rx.setPhase r v).phase r' = if r' = r then v else rx.phase r' := by cases r <;> cases r' <;> rfl

@[simp] theorem setPhase_freq (rx : Rx) (r r' : Reg) (v : Known PhaseWord) :
    (rx.setPhase r v).freq r' = rx.freq r' := by cases r <;> cases r' <;> rfl

@[simp] theorem setPhase_ctrl (rx : Rx) (r : Reg) (v : Known PhaseWord) : (rx.setPhase r v).ctrl = rx.ctrl := by
  cases r <;> rfl

@[simp] theorem setPhase_pend (rx : Rx) (r : Reg) (v : Known PhaseWord) : (rx.setPhase r v).pend = rx.pend := by
  cases r <;> rfl

/-! ## Decoding the words the block sends -/

@[simp] theorem decodeWire_packCtrl (c : BitVec 14) : decodeWire (packCtrl c) = .ctrlWrite c :=
  (Laws.RoundTrip.ctrlWrite c).2 rfl

@[simp] theorem decodeWire_ctrlWord (c : Word) : decodeWire (ctrlWord c) = .ctrlWrite (c.extractLsb' 0 14) :=
  decodeWire_packCtrl _

/-- A frequency word reads as a half for its register. -/
theorem decodeWire_freqWordTagged (r : Reg) (d : Half) :
    decodeWire (freqWordTagged r d) = (match r with | .r0 => .freq0Write d | .r1 => .freq1Write d) := by
  cases r
  · exact (Laws.RoundTrip.freq0Write d).2 rfl
  · exact (Laws.RoundTrip.freq1Write d).2 rfl

/-- A phase word reads as a phase for its register, bit 12 clear. -/
theorem decodeWire_phaseWordTagged (r : Reg) (d : PhaseWord) :
    decodeWire (phaseWordTagged r d) = (match r with | .r0 => .phase0Write false d | .r1 => .phase1Write false d) := by
  cases r
  · exact (Laws.RoundTrip.phase0Write false d).2 rfl
  · exact (Laws.RoundTrip.phase1Write false d).2 rfl

/-! ## One word at the device -/

@[simp] theorem after_ctrl_ok (rx : Rx) (c : Word) : rx.after ⟨ctrlWord c, .ok⟩ = rx.latchCtrl (ctrlWord c) := by
  simp only [Rx.after, decodeWire_ctrlWord, Rx.latch]; rfl

@[simp] theorem after_ctrl_err (rx : Rx) (c : Word) (e : TransportError) :
    rx.after ⟨ctrlWord c, .err e⟩ = rx.loseCtrl := by
  simp only [Rx.after, decodeWire_ctrlWord, Rx.lose]

@[simp] theorem after_freq_ok (rx : Rx) (r : Reg) (d : Half) :
    rx.after ⟨freqWordTagged r d, .ok⟩ = rx.latchFreq r d := by
  simp only [Rx.after, decodeWire_freqWordTagged]; cases r <;> rfl

@[simp] theorem after_freq_err (rx : Rx) (r : Reg) (d : Half) (e : TransportError) :
    rx.after ⟨freqWordTagged r d, .err e⟩ = rx.loseFreq r := by
  simp only [Rx.after, decodeWire_freqWordTagged]; cases r <;> rfl

@[simp] theorem after_phase_ok (rx : Rx) (r : Reg) (d : PhaseWord) :
    rx.after ⟨phaseWordTagged r d, .ok⟩ = rx.latchPhase r d := by
  simp only [Rx.after, decodeWire_phaseWordTagged]; cases r <;> rfl

@[simp] theorem after_phase_err (rx : Rx) (r : Reg) (d : PhaseWord) (e : TransportError) :
    rx.after ⟨phaseWordTagged r d, .err e⟩ = rx.losePhase r := by
  simp only [Rx.after, decodeWire_phaseWordTagged]; cases r <;> rfl

/-- R44, the first half in load mode: it is held. -/
theorem latchFreq_first {rx : Rx} {r : Reg} {d : Half} (hl : rx.loadMode = true) (hp : rx.pend = .none) :
    rx.latchFreq r d = { rx with pend := .lo r d } := by
  simp [Rx.latchFreq, hl, hp]

/-- R44, the second half to the same register in load mode: 28 bits are latched. -/
theorem latchFreq_second {rx : Rx} {r : Reg} {d d' : Half} (hl : rx.loadMode = true) (hp : rx.pend = .lo r d') :
    rx.latchFreq r d = { rx.setFreq r (.known (d ++ d')) with pend := .none } := by
  simp [Rx.latchFreq, hl, hp]

/-- R43: the device is in load mode exactly when the control word it latched has B28 = 1. -/
@[simp] theorem latchCtrl_loadMode (rx : Rx) (w : Word) : (rx.latchCtrl w).loadMode = getFlag w .b28 := rfl

end Sys2Proof.Machine
end

