-- ==== Sys2Proof/Laws/Run.lean ====
section
/-! SUPPORT. Runs, one step at a time: an accepted command, a completed word and a failed word; and the range check of
an admitted frequency. -/

namespace Sys2Proof.Machine

/-- R133: an initialised block does not refuse a frequency that the policy admits. -/
theorem checkFreq_admitted {s : State} {F : Hertz} (hf : s.fsm ≠ .uninit) (ha : s.admits F) : checkFreq s F = none := by
  unfold checkFreq
  rw [if_neg hf, if_neg]
  rintro ⟨hp, hr⟩
  rcases ha with hw | hin
  · rw [hp] at hw; cases hw
  · rw [(inRange_iff _ _).2 hin] at hr; cases hr

@[simp] theorem run_zero (s : State) : run 0 s = .next s := rfl

theorem run_succ {s t : State} (h : step s = .next t) (k : Nat) : run (k + 1) s = run k t := by
  have h' : Sys2Proof.core.step s = .next t := h
  simp only [run, Host.Core.run, h']
  rfl

/-- One step of an accepted command: its program is installed and run to its first emit (R191). -/
theorem run_accepted {s : State} {c : Command} {rest : List Command} {i : Instr} (hb : s.busy = false)
    (hc : s.cmds = c :: rest) (hd : decodeHeader c.hdr = .cmd i) (hi : i.isCommand = true)
    (hk : commandCheck s i c = none) (k : Nat) :
    run (k + 1) s = run k ((s.take rest).start (commandProgram s.params i c)) := by
  refine run_succ ?_ k
  rw [step, show s.event = .run i by simp [State.event, hb, hc, hd]]
  simp only
  rw [exec_command hi, accept_started hb hc hk]

/-- One step of a word that completes with `Ok` (R192). -/
theorem run_sent {s : State} {rest : List TxResult} (h : s.Answered .ok rest) (k : Nat) :
    run (k + 1) s = run k (runInternal
      { s.sent s.txWord .ok rest (s.rx.after ⟨s.txWord, .ok⟩) with wcount := s.wcount + 1 } s.uprog.tail) := by
  refine run_succ ?_ k
  rw [step, show s.event = .run (decodeWire s.txWord) by
    simp [State.event, h.busy, h.request, h.answered]]
  simp only
  rw [exec_wire (decodeWire_isCommand _), encode_decodeWire, transmit_ok h.busy h.request h.answered]
  rfl

/-- One step of a word that fails (R192, R221). -/
theorem run_failed {s : State} {e : TransportError} {rest : List TxResult} (h : s.Answered (.err e) rest) (k : Nat) :
    run (k + 1) s = run k
      ((s.sent s.txWord (.err e) rest (s.rx.after ⟨s.txWord, .err e⟩)).abort s.txWord e) := by
  refine run_succ ?_ k
  rw [step, show s.event = .run (decodeWire s.txWord) by
    simp [State.event, h.busy, h.request, h.answered]]
  simp only
  rw [exec_wire (decodeWire_isCommand _), encode_decodeWire, transmit_err h.busy h.request h.answered]
  rfl

end Sys2Proof.Machine
end

