-- ==== Sys2Proof/Laws/Stale.lean ====
section
/-! SUPPORT. The record of transmits (R233) and the staleness of the cache (R25): which words are control
words, and what one more transmit makes the last control word sent. -/

namespace Sys2Proof.Machine

/-- R61: the two top bits of a control word. -/
theorem ctrlWord_tag (c : Word) : (ctrlWord c).extractLsb' 14 2 = 0b00#2 := by
  apply BitVec.eq_of_getLsbD_eq
  intro i hi
  simp only [BitVec.getLsbD_extractLsb', ctrlWord, packCtrl_bit]
  rw [if_neg (by omega), Nat.add_sub_cancel_left]
  simp [hi]

/-- R61: the two top bits of a frequency word. -/
theorem freqWordTagged_tag (r : Reg) (d : Half) : (freqWordTagged r d).extractLsb' 14 2 = freqTag r := by
  apply BitVec.eq_of_getLsbD_eq
  intro i hi
  simp only [BitVec.getLsbD_extractLsb', freqWordTagged_bit]
  rw [if_neg (by omega), Nat.add_sub_cancel_left]
  simp [hi]

/-- R61: the two top bits of a phase word. -/
theorem packPhase_tag (r : Reg) (z : Bool) (d : PhaseWord) : (packPhase r z d).extractLsb' 14 2 = 0b11#2 := by
  apply BitVec.eq_of_getLsbD_eq
  intro i hi
  simp only [BitVec.getLsbD_extractLsb', packPhase_bit]
  rw [if_neg (by omega)]
  have : i = 0 ∨ i = 1 := by omega
  rcases this with rfl | rfl <;> cases r <;> cases z <;> rfl

@[simp] theorem isCtrl_ctrlWord_ok (c : Word) : Sent.isCtrl ⟨ctrlWord c, .ok⟩ = true := by
  simp [Sent.isCtrl, ctrlWord_tag]

@[simp] theorem isCtrl_err (w : Word) (e : TransportError) : Sent.isCtrl ⟨w, .err e⟩ = false := by
  simp [Sent.isCtrl]

@[simp] theorem isCtrl_freq (r : Reg) (d : Half) (res : TxResult) :
    Sent.isCtrl ⟨freqWordTagged r d, res⟩ = false := by
  cases r <;> simp [Sent.isCtrl, freqWordTagged_tag, freqTag]

@[simp] theorem isCtrl_phase (r : Reg) (d : PhaseWord) (res : TxResult) :
    Sent.isCtrl ⟨phaseWordTagged r d, res⟩ = false := by
  simp [Sent.isCtrl, phaseWordTagged, packPhase_tag]

end Sys2Proof.Machine
end

