-- ==== Sys2Proof/Tests/Slice0.lean ====
section
/-! SUPPORT. The model's own tests: expected values from file 95 (test vectors) and the tables of files 20 and 30,
and for every statement with hypotheses a state that meets them all (`test_meets_…`). -/

namespace Sys2Proof.Tests

open Sys2Proof.Machine

/-! ## States to test on -/

/-- The parameters of file 95: the defaults of R6 and the illustrative `INIT_*` values. -/
def parms : Params := ⟨.rat 8000000, 0x0000, .r0, .rat 1000, .ofRad 0, .sine, .wrap⟩

/-- A command with no operands in its slots. -/
def bare (h : Word) : Command := ⟨h, .rat 0, .ofRad 0⟩

/-- A block that is not busy, with the cache `c`, commands on the port and results to come. -/
def bench (c : Word) (f : Fsm) (cmds : List Command) (answers : List TxResult) : State :=
  { State.reset with params := parms, ctrl := c, fsm := f, cmds := cmds, answers := answers }

/-- `bench` under the policy `refuse`. -/
def strict (f : Fsm) (cmds : List Command) : State :=
  { bench 0 f cmds [] with params := { parms with freqOutOfRange := .refuse } }

/-- A block with the word `w` in flight, its program `prog` and the transmits `log` behind it. -/
def flying (c : Word) (w : Word) (prog : List MicroOp) (log : List Sent) (answers : List TxResult) : State :=
  { bench c .idle [] answers with
    busy := true, txReq := true, uprog := prog, txWord := w, log := log, wcount := log.length, rx := replay log }

/-- The transport error of the vectors. -/
def err : TransportError := ⟨7⟩

/-- What a step answers, through `f`. -/
def seen {α : Type} (o : Result) (f : State → α) : Option α :=
  match o with
  | .next t => some (f t)
  | .fault _ | .refused _ => none

/-! ## WellFormed: the check and what it refuses (R90) -/

theorem test_phase0_bit12_refused : (Instr.phase0Write true 0x000).wf = false := by decide
theorem test_phase1_bit12_refused : (Instr.phase1Write true 0xFFF).wf = false := by decide
theorem test_phase_bit12_clear_accepted : (Instr.phase0Write false 0xFFF).wf = true := by decide

/-! ## Decode: words written out from R80 to R84 and R61 -/

theorem test_decode_init : decodeHeader 0b0001000000000000 = .cmd .init := by decide
theorem test_decode_setbit : decodeHeader 0b0010000011010000 = .cmd (.setbit .sleep1 true) := by decide
theorem test_decode_setbit_last_flag : decodeHeader 0b0010000100000000 = .cmd (.setbit .b28 false) := by decide
theorem test_decode_flush : decodeHeader 0b0011000000000000 = .cmd .flush := by decide
theorem test_decode_setfreq : decodeHeader 0b0100100000000000 = .cmd (.setfreq .r1) := by decide
theorem test_decode_setphase : decodeHeader 0b0101000000000000 = .cmd (.setphase .r0) := by decide
theorem test_decode_selfreq : decodeHeader 0b0110100000000000 = .cmd (.selfreq .r1) := by decide
theorem test_decode_selphase : decodeHeader 0b0111000000000000 = .cmd (.selphase .r0) := by decide
theorem test_decode_setwave : decodeHeader 0b1000001000000000 = .cmd (.setwave .triangle) := by decide
theorem test_decode_rstassert : decodeHeader 0b1001000000000000 = .cmd .rstassert := by decide
theorem test_decode_rstrelease : decodeHeader 0b1010000000000000 = .cmd .rstrelease := by decide
theorem test_decode_apply : decodeHeader 0b1011111000000000 = .cmd (.apply .r1 .squareHalf) := by decide
theorem test_decode_apply_square : decodeHeader 0b1011010000000000 = .cmd (.apply .r0 .square) := by decide

theorem test_decode_ctrlWrite : decodeWire 0b0010110100101000 = .ctrlWrite 0b10110100101000 := by decide
theorem test_decode_freq0Write : decodeWire 0b0101000111110100 = .freq0Write 0b01000111110100 := by decide
theorem test_decode_freq1Write : decodeWire 0b1000001100010010 = .freq1Write 0b00001100010010 := by decide
theorem test_decode_phase0Write : decodeWire 0b1100001000000000 = .phase0Write false 0b001000000000 := by decide
theorem test_decode_phase1Write : decodeWire 0b1111010000000001 = .phase1Write true 0b010000000001 := by decide

/-- File 95, section 2.1: the refused headers. -/
theorem test_refused_headers :
    ([(0x0000, .reservedOpcode), (0xC000, .reservedOpcode), (0xF800, .reservedOpcode),
      (0x1001, .nonzeroUnusedField), (0x1800, .nonzeroUnusedField), (0x3010, .nonzeroUnusedField),
      (0x4200, .nonzeroUnusedField), (0x8800, .nonzeroUnusedField), (0xB010, .nonzeroUnusedField),
      (0x2808, .nonzeroUnusedField), (0x2120, .reservedFlag), (0x21F0, .reservedFlag),
      (0x0801, .reservedOpcode)] : List (Word × RefuseReason)).all
      (fun e => decodeHeader e.1 == .refused e.2) = true := by decide

/-- A word of the table that is a command header reads as the command, any other as the wire word it is. -/
theorem test_table_word : decodeTableWord 16 0x20D0 = some (.setbit .sleep1 true) ∧
    decodeTableWord 16 0x51F4 = some (.freq0Write 0x11F4) ∧ decodeTableWord 16 0xE400 = some (.phase1Write false 0x400) := by
  decide

/-! ## Conversions: file 95, sections 2.2 and 2.3 -/

theorem test_freq_words :
    ([(0, 0), (1 / 2, 0x10), (137, 0x11F4), (250, 0x20C4), (1000, 0x8312), (15625, 0x80000), (4000000, 0x8000000),
      (7999999, 0xFFFFFDE), (8000000, 0), (8000001, 0x21), (-1, 0xFFFFFDE), (-1 / 100, 0xFFFFFFF)] :
      List (Rat × FreqWord)).all (fun e => freqWord28 (.rat 8000000) (.rat e.1) == e.2) = true := by decide +kernel

theorem test_freq_halves : freqLo (.rat 8000000) (.rat 1000) = 0x0312 ∧ freqHi (.rat 8000000) (.rat 1000) = 0x0002 ∧
    freqW32 (.rat 8000000) (.rat 120000000) = 0xF0000000 ∧ freqLo (.rat 25000000) (.rat 1000000) = 0x170A ∧
    freqHi (.rat 25000000) (.rat 1000000) = 0x028F := by
  decide +kernel

theorem test_phase_of_pi :
    ([(0, 0), (1 / 2048, 1), (1 / 4, 0x200), (3 / 2, 0xC00), (2, 0), (-1 / 2, 0xC00), (1 / 4096, 1), (-1 / 4096, 0),
      (-3 / 4096, 0xFFF), (8191 / 4096, 0), (40954 / 20480, 0xFFF)] :
      List (Rat × PhaseWord)).all (fun e => phaseWord (.ofPi e.1) == e.2) = true := by decide +kernel

theorem test_phase_of_radians :
    ([(1, 0x28C), (1 / 2, 0x146), (2, 0x518), (3, 0x7A4), (-1, 0xD74), (7, 0x1D3), (100, 0xEA6), (6283 / 1000, 0)] :
      List (Rat × PhaseWord)).all (fun e => phaseWord (.ofRad e.1) == e.2) = true := by decide +kernel

/-! ## One step of each command: file 95, sections 2.4 to 2.6 -/

theorem test_setbit : seen (exec (.setbit .sleep12 false) (bench 0x2DEA .idle [bare 0x20E0] []))
    (fun t => (t.ctrl, t.busy, t.resp)) = some (0x2DAA, false, .ok) := by decide
theorem test_setbit_any_combination : seen (exec (.setbit .mode true) (bench 0x0020 .idle [bare 0x2030] []))
    (fun t => t.ctrl) = some 0x0022 := by decide
theorem test_flush : seen (exec .flush (bench 0x0080 .idle [bare 0x3000] []))
    (fun t => (t.txWord, t.busy, t.ctrl)) = some (0x0080, true, 0x0080) := by decide
theorem test_setfreq : seen (exec (.setfreq .r1) (bench 0x0128 .idle [⟨0x4800, .rat 7999999, .ofRad 0⟩] []))
    (fun t => (t.txWord, t.uprog)) = some (0x2128, [.emitCtrl, .emit 0xBFDE, .emit 0xBFFF]) := by decide +kernel
theorem test_setfreq_refused : seen (exec (.setfreq .r0) (strict .idle [⟨0x4000, .rat 8000000, .ofRad 0⟩]))
    (fun t => (t.resp, t.ctrl, t.busy)) = some (.refused .freqOutOfRange, 0x0000, false) := by decide +kernel
theorem test_setphase : seen (exec (.setphase .r1) (bench 0x2C28 .idle [⟨0x5800, .rat 0, .ofPi (-1 / 2)⟩] []))
    (fun t => (t.txWord, t.ctrl)) = some (0xEC00, 0x2C28) := by decide +kernel
theorem test_selfreq : seen (exec (.selfreq .r0) (bench 0x2C28 .idle [bare 0x6000] []))
    (fun t => (t.txWord, t.ctrl)) = some (0x2428, 0x2428) := by decide
theorem test_selphase : seen (exec (.selphase .r0) (bench 0x2C28 .idle [bare 0x7000] []))
    (fun t => (t.txWord, t.ctrl)) = some (0x2828, 0x2828) := by decide
theorem test_setwave_square : seen (exec (.setwave .square) (bench 0x20C2 .idle [bare 0x8400] []))
    (fun t => (t.txWord, t.ctrl)) = some (0x20E8, 0x20E8) := by decide
theorem test_setwave_sine_keeps_div2 : seen (exec (.setwave .sine) (bench 0x002A .idle [bare 0x8000] []))
    (fun t => t.ctrl) = some 0x0008 := by decide
theorem test_rstassert : seen (exec .rstassert (bench 0x2028 .idle [bare 0x9000] []))
    (fun t => (t.txWord, t.fsm)) = some (0x2128, .idle) := by decide
theorem test_rstrelease : seen (exec .rstrelease (bench 0x2128 .reconf [bare 0xA000] []))
    (fun t => (t.txWord, t.fsm)) = some (0x2028, .reconf) := by decide
theorem test_apply : seen (exec (.apply .r1 .square) (bench 0x0000 .idle [⟨0xBC00, .rat 1000, .ofPi (1 / 2)⟩] []))
    (fun t => (t.fsm, t.txWord, t.uprog)) = some (.reconf, 0x0100,
      [.emitCtrl, .set .fsel true, .set .psel true, .set .b28 true, .emitCtrl, .emit 0x8312, .emit 0x8002, .emit 0xE400,
       .set .mode false, .set .opbiten true, .set .div2 true, .emitCtrl, .set .reset false, .emitCtrl, .fsm .idle]) := by
  decide +kernel
theorem test_init_again : seen (exec .init (bench 0x2CE8 .idle [bare 0x1000] []))
    (fun t => (t.fsm, t.ctrl, t.txWord)) = some (.reconf, 0x0100, 0x0100) := by decide +kernel
theorem test_not_initialised : seen (step (bench 0x0000 .uninit [⟨0x4000, .rat 500, .ofRad 0⟩] []))
    (fun t => (t.resp, t.busy, t.cmds)) = some (.refused .notInitialised, false, []) := by decide +kernel
theorem test_refused_header : seen (step (bench 0x0080 .idle [bare 0x2120] []))
    (fun t => (t.resp, t.ctrl)) = some (.refused .reservedFlag, 0x0080) := by decide

/-! ## One step of each wire word: R43 to R46 and R192 -/

theorem test_ctrlWrite : seen (exec (.ctrlWrite 0x2D00) (flying 0x2D00 0x2D00 [.emitCtrl, .emit 0x8312] [] [.ok]))
    (fun t => (t.rx.ctrl, t.rx.pend, t.txWord, t.wcount)) = some (.known 0x2D00, .none, 0x8312, 1) := by decide
theorem test_freq0Write : seen (exec (.freq0Write 0x11F4) (flying 0x2000 0x51F4 [.emit 0x51F4, .emit 0x4000] [⟨0x2000, .ok⟩] [.ok]))
    (fun t => (t.rx.pend, t.rx.freq0)) = some (.lo .r0 0x11F4, .unknown) := by decide
theorem test_freq1Write : seen
    (exec (.freq1Write 0x0002) (flying 0x2000 0x8002 [.emit 0x8002] [⟨0x2000, .ok⟩, ⟨0x8312, .ok⟩] [.ok]))
    (fun t => (t.rx.freq1, t.rx.pend, t.resp)) = some (.known 0x0008312, .none, .ok) := by decide
theorem test_freq_without_load_mode : seen (exec (.freq0Write 0x11F4) (flying 0 0x51F4 [.emit 0x51F4] [⟨0x0000, .ok⟩] [.ok]))
    (fun t => (t.rx.pend, t.rx.freq0)) = some (.unknown, .unknown) := by decide
theorem test_phase0Write : seen (exec (.phase0Write false 0x200) (flying 0 0xC200 [.emit 0xC200] [] [.ok]))
    (fun t => (t.rx.phase0, t.rx.phase1, t.busy)) = some (.known 0x200, .unknown, false) := by decide
theorem test_phase1Write_fails : seen (exec (.phase1Write false 0x800) (flying 0x2000 0xE800 [.emit 0xE800] [] [.err err]))
    (fun t => (t.resp, t.ctrl, t.busy)) = some (.transportError 1 0xE800 err, 0x2000, false) := by decide
/-- R222, row 7: the last word of an APPLY fails, and `fsm` stays RECONF. -/
theorem test_apply_last_word_fails : seen
    (step { flying 0x2C28 0x2C28 [.emitCtrl, .fsm .idle] [] [.err err] with fsm := .reconf, wcount := 6 })
    (fun t => (t.resp, t.ctrl, t.fsm, t.rx.out)) = some (.transportError 7 0x2C28 err, 0x2C28, .reconf, .unknown) := by decide
/-- R193: the last word of an APPLY completes, and `fsm` returns to IDLE. -/
theorem test_apply_completes : seen
    (step { flying 0x2C28 0x2C28 [.emitCtrl, .fsm .idle] [] [.ok] with fsm := .reconf, wcount := 6 })
    (fun t => (t.resp, t.fsm, t.busy, t.stale)) = some (.ok, .idle, false, false) := by decide

/-! ## The assembler (R94 to R96) -/

theorem test_asm_program : assembleLines ["; pair 0".toList, "  INIT ; boot".toList, "APPLY0 2.5e2, 1*pi/4, TRIANGLE".toList] =
    some [⟨0x1000, .rat 0, .ofRad 0⟩, ⟨0xB200, .rat 250, .ofPi (1 / 4)⟩] := by decide +kernel
theorem test_asm_refuses : assembleLines ["SETBIT HLB, 1".toList] = none ∧ assembleLines ["SELFREQ 2".toList] = none := by
  decide +kernel

/-! ## Reset and the status port -/

theorem test_reset_status : State.reset.status = ⟨0x0000, .uninit, false, .none⟩ := by decide
theorem test_reset_waits : seen (step State.reset) (fun t => t.status) = some State.reset.status := by decide

/-! ## The hypotheses of the statements are met -/

/-- A command that the block takes: `Ready`, at the header `h`. -/
theorem test_ready (c : Word) (k : Command) (as : List TxResult) : (bench c .idle [k] as).Ready k [] :=
  ⟨rfl, rfl, nofun⟩

/-- A word in flight with an answer: `Answered`. -/
theorem test_answered (c w : Word) (prog : List MicroOp) (log : List Sent) (res : TxResult) :
    (flying c w prog log [res]).Answered res [] := ⟨rfl, rfl, rfl⟩

theorem test_meets_DecodeAndEncodeAgree :
    Instr.init.isCommand = true ∧ (Instr.freq1Write 0).isCommand = false ∧ decodeHeader 0xBE00 = .cmd (.apply .r1 .squareHalf) := by
  decide

/-- Each clause at its boundary: opcodes 0x0, 0x1, 0xB and 0xC, an unused bit, flag codes 8 and 9. -/
theorem test_meets_HeaderChecksRunInOrder :
    decodeHeader 0x0FFF = .refused .reservedOpcode ∧ decodeHeader 0x1000 = .cmd .init ∧ decodeHeader 0xBE00 = .cmd (.apply .r1 .squareHalf) ∧
    decodeHeader 0xC000 = .refused .reservedOpcode ∧ decodeHeader 0x2121 = .refused .nonzeroUnusedField ∧
    decodeHeader 0x2110 = .cmd (.setbit .b28 true) ∧ decodeHeader 0x2120 = .refused .reservedFlag := by decide

theorem test_meets_StepRunsPresentedCommand : (bench 0 .idle [bare 0x3000] []).busy = false ∧
    (bench 0 .idle [bare 0x3000] []).cmds = [bare 0x3000] ∧ decodeHeader (bare 0x3000).hdr = .cmd .flush := ⟨rfl, rfl, by decide⟩

theorem test_meets_StepRunsWordInFlight : (flying 0 0xC200 [.emit 0xC200] [] [.ok]).Answered .ok [] := test_answered _ _ _ _ _

theorem test_meets_StepWaitsForItsInputs : ((bench 0 .idle [] [.ok]).busy = false ∧ (bench 0 .idle [] [.ok]).cmds = []) ∧
    ((flying 0 0 [.emitCtrl] [] []).busy = true ∧ (flying 0 0 [.emitCtrl] [] []).answers = []) := ⟨⟨rfl, rfl⟩, rfl, rfl⟩

theorem test_meets_PlacedWordIsTheOneRun : decodeTableWord 16 0x9000 = some .rstassert ∧
    decodeTableWord 16 0xFFFF = some (.phase1Write true 0xFFF) := by decide

theorem test_meets_BusyBlockHoldsCommands : (flying 0 0 [.emitCtrl] [] [.ok]).busy = true ∧ Instr.flush.isCommand = true ∧
    ∃ t, step { flying 0 0 [.emitCtrl] [] [.ok] with cmds := [bare 0x9000] } = .next t := ⟨rfl, rfl, _, rfl⟩

theorem test_meets_ReservedHeadersAreRefused : (bench 0 .idle [bare 0xF800] []).busy = false ∧
    (bench 0 .idle [bare 0xF800] []).cmds = [bare 0xF800] ∧ decodeHeader (bare 0xF800).hdr = .refused .reservedOpcode :=
  ⟨rfl, rfl, by decide⟩

theorem test_meets_CommandsBeforeInitAreRefused : (bench 0 .uninit [bare 0x2010] []).busy = false ∧
    (bench 0 .uninit [bare 0x2010] []).cmds = [bare 0x2010] ∧ (bench 0 .uninit [bare 0x2010] []).fsm = .uninit ∧
    (Instr.setbit .reset true).isCommand = true ∧ Instr.setbit .reset true ≠ .init := ⟨rfl, rfl, rfl, rfl, nofun⟩

/-- Below the range, and at its upper end. -/
theorem test_meets_OutOfRangeFrequencyIsRefused :
    ((strict .idle [⟨0x4000, .rat (-1), .ofRad 0⟩]).Ready ⟨0x4000, .rat (-1), .ofRad 0⟩ [] ∧
      (strict .idle []).params.freqOutOfRange = .refuse ∧ (Hertz.rat (-1)).value < 0) ∧
    (strict .idle [⟨0xB000, .rat 8000000, .ofRad 0⟩]).Ready ⟨0xB000, .rat 8000000, .ofRad 0⟩ [] ∧
    (strict .idle []).params.refclk.value ≤ (Hertz.rat 8000000).value :=
  ⟨⟨⟨rfl, rfl, by decide⟩, rfl, by norm_num [Hertz.value, Hertz.valueIn]⟩, ⟨rfl, rfl, by decide⟩, le_refl _⟩

/-- For SetbitWritesOneFlag, FlushPresentsTheCache, SetphaseIsAccepted, SelectsAreAccepted, SetwaveIsAccepted and
ResetCommandsAreAccepted. -/
theorem test_meets_AcceptedCommands : (bench 0x2DEA .reconf [bare 0x3000] []).Ready (bare 0x3000) [] := ⟨rfl, rfl, by decide⟩

/-- For SetfreqIsAccepted and ApplyIsAccepted: under `wrap` with any frequency, under `refuse` at the lower end of
the range and just below its upper end. -/
theorem test_meets_AdmittedFrequencies :
    ((bench 0 .idle [⟨0x4000, .rat (-1), .ofRad 0⟩] []).Ready ⟨0x4000, .rat (-1), .ofRad 0⟩ [] ∧
      (bench 0 .idle [] []).admits (.rat (-1))) ∧
    (strict .idle [⟨0xB000, .rat 0, .ofRad 0⟩]).Ready ⟨0xB000, .rat 0, .ofRad 0⟩ [] ∧ (strict .idle []).admits (.rat 0) ∧
    (strict .idle []).admits (.rat (7999999 + 1 / 2)) :=
  ⟨⟨⟨rfl, rfl, by decide⟩, .inl rfl⟩, ⟨rfl, rfl, by decide⟩,
    .inr (by norm_num [strict, bench, parms, Hertz.value, Hertz.valueIn]),
    .inr (by norm_num [strict, bench, parms, Hertz.value, Hertz.valueIn])⟩

/-- An operand without a name, under `wrap`: any real number at all. -/
theorem test_meets_UnnamedFrequency (n : Nat) : (bench 0 .idle [⟨0x4000, .real n, .real n⟩] []).Ready ⟨0x4000, .real n, .real n⟩ [] ∧
    (bench 0 .idle [] []).admits (.real n) := ⟨test_ready _ _ _, .inl rfl⟩

/-- Before INIT and after it. -/
theorem test_meets_InitIsAcceptedInEveryState :
    ((bench 0 .uninit [bare 0x1000] []).busy = false ∧ (bench 0 .uninit [bare 0x1000] []).cmds = [bare 0x1000] ∧
      (bench 0 .uninit [] []).params.wf = true) ∧
    (bench 0x2CE8 .reconf [bare 0x1000] []).busy = false := ⟨⟨rfl, rfl, by decide +kernel⟩, rfl⟩

theorem test_meets_LastWordCompletesTheCommand : (Instr.phase0Write false 0x200).isCommand = false ∧
    (flying 0 0xC200 [.emit 0xC200] [] [.ok]).Answered .ok [] ∧ (flying 0 0xC200 [.emit 0xC200] [] [.ok]).uprog = [.emit 0xC200] :=
  ⟨rfl, test_answered _ _ _ _ _, rfl⟩

theorem test_meets_CompletedWordLeadsToTheNext : (Instr.ctrlWrite 0x2000).isCommand = false ∧
    (flying 0x2000 0x2000 [.emitCtrl, .emit 0x51F4, .emit 0x4000] [] [.ok]).Answered .ok [] ∧
    (flying 0x2000 0x2000 [.emitCtrl, .emit 0x51F4, .emit 0x4000] [] [.ok]).uprog = .emitCtrl :: .emit 0x51F4 :: [.emit 0x4000] :=
  ⟨rfl, test_answered _ _ _ _ _, rfl⟩

theorem test_meets_CompletedWordIsRecorded : (Instr.ctrlWrite 0x2D28).isCommand = false ∧
    (flying 0x2D28 0x2D28 [.emitCtrl, .set .reset false, .emitCtrl, .fsm .idle] [] [.ok]).Answered .ok [] :=
  ⟨rfl, test_answered _ _ _ _ _⟩

/-- For FailedWordAbortsTheCommand and FailedWordLosesItsTarget. -/
theorem test_meets_FailedWordAbortsTheCommand : (Instr.freq0Write 0).isCommand = false ∧
    (flying 0x2000 0x4000 [.emit 0x4000] [⟨0x2000, .ok⟩, ⟨0x51F4, .ok⟩] [.err err]).Answered (.err err) [] :=
  ⟨rfl, test_answered _ _ _ _ _⟩

/-- For ControlWordIsLatched and PhaseWordIsLatched, with a half pending. -/
theorem test_meets_LatchedWords : (flying 0 0xC200 [.emit 0xC200] [⟨0x2000, .ok⟩, ⟨0x51F4, .ok⟩] [.ok]).Answered .ok [] :=
  test_answered _ _ _ _ _

/-- Every clause: nothing pending, the low half of the same and of the other register, an unknown half, B28 = 0 and an
unknown control word. -/
theorem test_meets_FrequencyHalvesArePaired :
    (flying 0 0x51F4 [] [⟨0x2000, .ok⟩] [.ok]).Answered .ok [] ∧
    (replay [⟨0x2000, .ok⟩] = ⟨.known 0x2000, .unknown, .unknown, .unknown, .unknown, .none⟩ ∧ (0x2000 : Word).getLsbD 13 = true) ∧
    (replay [⟨0x2000, .ok⟩, ⟨0x51F4, .ok⟩]).pend = .lo .r0 0x11F4 ∧ (replay [⟨0x2000, .ok⟩, ⟨0x91F4, .ok⟩]).pend = .lo (regOther .r0) 0x11F4 ∧
    ((replay [⟨0x2000, .ok⟩, ⟨0x51F4, .err err⟩]).pend = .unknown ∧ (replay [⟨0x2000, .ok⟩, ⟨0x51F4, .err err⟩]).ctrl = .known 0x2000) ∧
    (replay [⟨0x0000, .ok⟩]).ctrl = .known 0x0000 ∧ (0x0000 : Word).getLsbD 13 = false ∧ (replay []).ctrl = .unknown :=
  ⟨⟨rfl, rfl, rfl⟩, by decide⟩

theorem test_meets_RepeatedWordsAtTheDevice : getFlag (packCtrl 0x2000) .b28 = true := by decide

/-- For OneWordCommandsComplete, OneWordCommandsAbort and the first clause of StalenessOfTheCache: each of the
seven commands of one word. -/
theorem test_meets_OneWordCommands :
    (∀ h as, (bench 0x2028 .idle [bare h] as).Ready (bare h) []) ∧
    ([(0x3000, .flush, 0x2028, 0x2028), (0x6800, .selfreq .r1, 0x2828, 0x2828), (0x7800, .selphase .r1, 0x2428, 0x2428),
      (0x8600, .setwave .squareHalf, 0x2020, 0x2020), (0x9000, .rstassert, 0x2128, 0x2128), (0xA000, .rstrelease, 0x2028, 0x2028)] :
      List (Word × Instr × Word × Word)).all (fun e => (bare e.1).hdr == encode e.2.1 &&
        oneWord (bench 0x2028 .idle [bare e.1] [.ok]) (bare e.1) e.2.1 == some e.2.2) = true ∧
    (bench 0x2028 .idle [bare 0x3000] [.ok]).answers = .ok :: [] ∧
    (bench 0x2028 .idle [bare 0x3000] [.err err]).answers = .err err :: [] :=
  ⟨fun _ _ => test_ready _ _ _, by decide, rfl, rfl⟩

theorem test_meets_OneWordCommands_setphase : (bare 0x5800).hdr = encode (.setphase .r1) ∧
    oneWord (bench 0x2028 .idle [bare 0x5800] [.ok]) (bare 0x5800) (.setphase .r1) = some (0x2028, 0xE000) := by decide +kernel

/-- For SetfreqSendsThreeWords, SetfreqLatchesAtItsThirdWord and the second clause of StalenessOfTheCache, with one
more answer to come; and for SetfreqAbortsAtAnyWord at its first and at its last word. -/
theorem test_meets_Setfreq :
    (bench 0 .idle [bare 0x4800] [.ok, .ok, .ok, .ok]).Ready (bare 0x4800) [] ∧ (bare 0x4800).hdr = encode (.setfreq .r1) ∧
    (bench 0 .idle [bare 0x4800] []).admits (bare 0x4800).F ∧
    (bench 0 .idle [bare 0x4800] [.ok, .ok, .ok, .ok]).answers = [.ok, .ok, .ok] ++ [.ok] ∧
    (bench 0 .idle [bare 0x4800] [.err err]).answers = List.replicate 0 .ok ++ .err err :: [] ∧
    (bench 0 .idle [bare 0x4800] [.ok, .ok, .err err]).answers = List.replicate 2 .ok ++ .err err :: [] :=
  ⟨⟨rfl, rfl, by decide⟩, by decide, .inl rfl, rfl, rfl, rfl⟩

/-- For the statements about APPLY and INIT: both commands start, with seven answers, and with a failure after any
number of words. -/
theorem test_meets_Composite :
    (bench 0x00C0 .idle [bare 0xB200] (List.replicate 7 .ok)).StartsComposite (bare 0xB200) [] ⟨0x00C0, .r0, .rat 0, .ofRad 0, .triangle⟩ ∧
    (bench 0x2DEA .uninit [bare 0x1000] (List.replicate 7 .ok)).StartsComposite (bare 0x1000) []
      ⟨loadCtrl 0x0000, .r0, .rat 1000, .ofRad 0, .sine⟩ ∧
    (bench 0x00C0 .idle [bare 0xB200] (List.replicate 7 .ok)).answers = List.replicate 7 .ok ++ [] ∧
    (∀ n, (bench 0x00C0 .idle [bare 0xB200] (List.replicate n .ok ++ [.err err])).answers = List.replicate n .ok ++ .err err :: []) ∧
    (0x00C0 : Word) &&& ~~~namedBits = 0 :=
  ⟨.apply .r0 .triangle ⟨rfl, rfl, by decide⟩ (by decide) (.inl rfl), .init rfl rfl (by decide), rfl, fun _ => rfl, by decide⟩

/-- The last two clauses: a fresh cache, and a refused header. -/
theorem test_meets_StalenessOfTheCache :
    ({ bench 0x0080 .idle [bare 0x2010] [] with log := [⟨0x0080, .ok⟩] }.Ready (bare 0x2010) [] ∧
      { bench 0x0080 .idle [bare 0x2010] [] with log := [⟨0x0080, .ok⟩] }.stale = false) ∧
    (bench 0x0080 .idle [bare 0xF800] []).event = .refuse .reservedOpcode [] := ⟨⟨⟨rfl, rfl, by decide⟩, by decide⟩, by decide⟩

/-- For FrequencyWordFormula, FrequencyLaws and RationalSlotsLoseNoBehaviour: both ends of the range, and the last step. -/
theorem test_meets_FrequencyLaws : 0 < (Hertz.rat 8000000).value ∧ 0 ≤ (Hertz.rat 0).value ∧
    (Hertz.rat 0).value ≤ (Hertz.rat 7999999).value ∧ (Hertz.rat 7999999).value < (Hertz.rat 8000000).value ∧
    2 ^ 28 - 1 < 2 ^ 28 ∧
    (Hertz.rat (268435455 * 8000000 / 2 ^ 28)).value = (268435455 : Nat) * (Hertz.rat 8000000).value / 2 ^ 28 := by
  norm_num [Hertz.value, Hertz.valueIn]

/-- The second and the third clause of PhaseLaws: one turn on, and one step. -/
theorem test_meets_PhaseLaws : (Angle.ofPi 2).value = (Angle.ofPi 0).value + 2 * Real.pi * (1 : Int) ∧
    (Angle.ofPi (1 / 2048)).value = (1 : Int) * Real.pi / 2048 := by
  refine ⟨?_, ?_⟩ <;> simp only [Angle.ofPi, Angle.value] <;> push_cast <;> ring

/-- The clauses of OutputOfTheReceiverView: no control word, RESET set, and RESET clear with FSEL and PSEL apart. -/
theorem test_meets_OutputOfTheReceiverView : Rx.powerOn.ctrl = .unknown ∧ (replay [⟨0x0100, .ok⟩]).ctrl = .known 0x0100 ∧
    (0x0100 : Word).getLsbD 8 = true ∧ (replay [⟨0x0828, .ok⟩, ⟨0xC200, .ok⟩]).ctrl = .known 0x0828 ∧
    (replay [⟨0x0828, .ok⟩, ⟨0xC200, .ok⟩]).out = .running .unknown (.known 0x200) false true true := by decide

/-- The invariant holds with a word of each kind in flight: a control word, a low half to FREQ0, a high half to
FREQ1 and a phase word. -/
theorem test_meets_Inv_control_word : (flying 0x2DEA 0x2DEA [.emitCtrl] [] [.ok]).Inv :=
  ⟨by decide +kernel, by decide, rfl, nofun, fun _ => by decide, by decide, by simp [flying], by simp [flying, bench], rfl,
    .free, by decide, by decide⟩

theorem test_meets_Inv_low_half : (flying 0x2000 0x51F4 [.emit 0x51F4, .emit 0x4000] [⟨0x2000, .ok⟩] [.ok]).Inv :=
  ⟨by decide +kernel, by decide, rfl, nofun, fun _ => by decide, by decide, by simp [flying], by simp [flying, bench], rfl,
    .armed, by decide, by decide⟩

theorem test_meets_Inv_high_half : (flying 0x2000 0x8002 [.emit 0x8002] [⟨0x2000, .ok⟩, ⟨0x8312, .ok⟩] [.ok]).Inv :=
  ⟨by decide +kernel, by decide, rfl, nofun, fun _ => by decide, by decide, by simp [flying], by simp [flying, bench], rfl,
    .low .r1, by decide, by decide⟩

theorem test_meets_Inv_phase : (flying 0x2000 0xC200 [.emit 0xC200] [⟨0x2000, .ok⟩] [.err err]).Inv :=
  ⟨by decide +kernel, by decide, rfl, nofun, fun _ => by decide, by decide, by simp [flying], by simp [flying, bench], rfl,
    .armed, by decide, by decide⟩

theorem test_meets_Inv_ready (k : Command) : (bench 0x2028 .idle [k] [.ok]).Inv :=
  ⟨by show parms.wf = true; decide +kernel, by show (0x2028 : Word) &&& _ = _; decide, rfl, fun _ => ⟨rfl, rfl⟩, nofun, rfl,
    nofun, nofun, rfl, .free, rfl, rfl⟩

/-- Both clauses, for both halves: the register of the word in flight. -/
theorem test_meets_FrequencyWordsTakenInTwoHalfMode : decodeWire 0x51F4 = .freq0Write 0x11F4 ∧ decodeWire 0x8002 = .freq1Write 0x0002 ∧
    (flying 0x2000 0x51F4 [.emit 0x51F4, .emit 0x4000] [⟨0x2000, .ok⟩] [.ok]).Answered .ok [] ∧
    (flying 0x2000 0x8002 [.emit 0x8002] [⟨0x2000, .ok⟩, ⟨0x8312, .ok⟩] [.ok]).Answered .ok [] :=
  ⟨by decide, by decide, ⟨rfl, rfl, rfl⟩, rfl, rfl, rfl⟩

/-- For StepKeepsTheInvariant, ParametersNeverChange and BlockNeverReadsTheDevice: a step from a state that meets the
invariant, while busy and while not. -/
theorem test_meets_StepKeepsTheInvariant :
    (∃ t, step (flying 0x2DEA 0x2DEA [.emitCtrl] [] [.ok]) = .next t) ∧ ∃ t, step (bench 0x2028 .idle [bare 0x9000] [.ok]) = .next t :=
  ⟨⟨_, rfl⟩, _, rfl⟩

/-- A command that is neither INIT nor SETBIT is presented, and the block steps. -/
theorem test_meets_SleepBitsChangeOnlyBySetbitAndInit :
    (∀ c rest, (bench 0x2028 .idle [bare 0x9000] [.ok]).busy = false → (bench 0x2028 .idle [bare 0x9000] [.ok]).cmds = c :: rest →
      c.hdr ≠ encode .init ∧ ∀ f v, c.hdr ≠ encode (.setbit f v)) ∧
    ∃ t, step (bench 0x2028 .idle [bare 0x9000] [.ok]) = .next t := by
  refine ⟨fun c rest _ hc => ?_, _, rfl⟩
  cases hc
  refine ⟨by decide, fun f v => ?_⟩
  cases f <;> cases v <;> decide

/-- The clauses of FsmTransitions not covered above: INIT and APPLY presented, a single command, the last word of an
APPLY, a failed word, a refused header, a command before INIT, and an APPLY whose frequency is not admitted. -/
theorem test_meets_FsmTransitions :
    ((bench 0 .uninit [] []).fsm = .uninit ∧ ∃ t, step (bench 0 .uninit [] []) = .next t ∧ t.fsm = .uninit) ∧
    ((bench 0 .uninit [bare 0x1000] []).busy = false ∧ (bench 0 .uninit [bare 0x1000] []).cmds = [bare 0x1000]) ∧
    ((bench 0 .reconf [bare 0xB000] []).Ready (bare 0xB000) [] ∧ (bench 0 .reconf [] []).admits (.rat 0)) ∧
    (Instr.flush.isCommand = true ∧ Instr.flush ≠ .init ∧ (∀ r w, Instr.flush ≠ .apply r w) ∧
      ∃ t, exec .flush (bench 0 .idle [bare 0x3000] []) = .next t) ∧
    (∃ t, step (flying 0x2000 0xC200 [.emit 0xC200] [⟨0x2000, .ok⟩] [.err err]) = .next t) ∧
    ((bench 0 .reconf [bare 0xF800] []).event = .refuse .reservedOpcode [] ∧
      ∃ t, step (bench 0 .reconf [bare 0xF800] []) = .next t) ∧
    (∃ t, exec .flush (bench 0 .uninit [bare 0x3000] []) = .next t) ∧
    (¬(strict .idle []).admits (.rat (-1)) ∧ ∃ t, exec (.apply .r0 .sine) (strict .idle [⟨0xB000, .rat (-1), .ofRad 0⟩]) = .next t) := by
  refine ⟨⟨rfl, _, rfl, rfl⟩, ⟨rfl, rfl⟩, ⟨⟨rfl, rfl, by decide⟩, .inl rfl⟩, ⟨rfl, nofun, nofun, _, rfl⟩, ⟨_, rfl⟩,
    ⟨by decide, _, rfl⟩, ⟨_, rfl⟩, ?_, ?_⟩
  · rintro (h | h)
    · cases h
    · exact absurd h.1 (by norm_num [Hertz.value, Hertz.valueIn])
  · have h : ∀ s, ∃ t, execApply .r0 .sine s = .next t := by
      intro s
      unfold execApply accept
      split
      · exact ⟨_, rfl⟩
      · split
        · exact ⟨_, rfl⟩
        · split <;> exact ⟨_, rfl⟩
    exact h _

/-- The end of an APPLY: the invariant holds with FSM(IDLE) waiting, the block is busy and its step changes `fsm`. -/
def applyEnd : State := { flying 0x2C28 0x2C28 [.emitCtrl, .fsm .idle] [⟨0x2D28, .ok⟩] [.ok] with fsm := .reconf, wcount := 6 }

theorem test_meets_FsmTransitions_end : applyEnd.Inv ∧ applyEnd.busy = true ∧ ∃ t, step applyEnd = .next t ∧ t.fsm ≠ applyEnd.fsm :=
  ⟨⟨by decide +kernel, by decide, rfl, nofun, fun _ => by decide, by decide, fun _ => rfl, nofun, rfl, .armed, by decide, by decide⟩,
    rfl, _, rfl, by decide⟩

theorem test_meets_WordsInFlightAreWellFormed : (flying 0x2DEA 0x2DEA [.emitCtrl] [] [.ok]).busy = true ∧
    (flying 0x2DEA 0x2DEA [.emitCtrl] [] [.ok]).txWord.extractLsb' 14 2 = 0b00#2 := ⟨rfl, by decide⟩

end Sys2Proof.Tests
end

/-! SUPPORT. The scope of the model (file 00): the parameters of R6 are configuration, and every operation keeps them. -/

namespace Sys2Proof.Machine

/-! ## No operation writes the parameters (R6) -/

@[simp] theorem start_params (s : State) (prog : List MicroOp) : (s.start prog).params = s.params :=
  runInternal_params _ prog

theorem accept_keeps_params {s t : State} {check prog} (h : accept s check prog = .next t) : t.params = s.params := by
  rcases accept_cases h with rfl | ⟨c, rest, r, -, -, -, rfl⟩ | ⟨c, rest, -, -, -, rfl⟩
  · rfl
  · rw [refuse_params, take_params]
  · rw [start_params, take_params]

theorem transmit_keeps_params {s t : State} {w : Word} {latched lost : Rx} (h : transmit s w latched lost = .next t) :
    t.params = s.params := by
  rcases transmit_cases h with rfl | ⟨rest, -, -, -, rfl⟩ | ⟨e, rest, -, -, -, rfl⟩
  · rfl
  · rw [runInternal_params, sent_params]
  · rw [abort_params, sent_params]

/-- Every instruction is a command's accept step or a wire word's completion, and neither writes the parameters. -/
theorem exec_keeps_params {i : Instr} {s t : State} (h : exec i s = .next t) : t.params = s.params := by
  cases hi : i.isCommand with
  | true => exact accept_keeps_params ((exec_command hi s).symm.trans h)
  | false => exact transmit_keeps_params ((exec_wire hi s).symm.trans h)

theorem step_keeps_params {s t : State} (h : step s = .next t) : t.params = s.params := by
  rcases step_cases h with ⟨-, rfl⟩ | ⟨r, rest, -, rfl⟩ | ⟨i, -, hexec⟩
  · rfl
  · rw [refuse_params, take_params]
  · exact exec_keeps_params hexec

/-- Settles O54: `exec` keeps the parameters by the accept step and the transmit-completion step, and a step that runs
no instruction waits or refuses a header. -/
theorem parametersNeverChange : Obligations.ParametersNeverChange :=
  ⟨fun _ _ _ => exec_keeps_params, fun _ _ => step_keeps_params⟩

end Sys2Proof.Machine

/-! SUPPORT. The receiver view after one completed word (R43 to R46) and the output it drives (R47). -/

namespace Sys2Proof.Machine

/-! ## One completed word at the device -/

/-- R192: a wire word answered `Ok` leaves the device with what it latches. -/
theorem exec_ok_rx {i : Instr} {s : State} {rest : List TxResult} (hi : i.isCommand = false)
    (h : s.Answered .ok rest) : ∃ t, exec i s = .next t ∧ t.rx = s.rx.latch i :=
  ⟨_, (exec_wire hi s).trans (transmit_ok h.busy h.request h.answered _ _ _), runInternal_rx _ _⟩

/-- R192: a wire word answered `Err` leaves the device without the word's target. -/
theorem exec_err_rx {i : Instr} {s : State} {e : TransportError} {rest : List TxResult} (hi : i.isCommand = false)
    (h : s.Answered (.err e) rest) : ∃ t, exec i s = .next t ∧ t.rx = s.rx.lose i :=
  ⟨_, (exec_wire hi s).trans (transmit_err h.busy h.request h.answered _ _ _), rfl⟩

/-- Settles O27: what `Rx.latchCtrl` writes. -/
theorem controlWordIsLatched : Obligations.ControlWordIsLatched :=
  fun _ c _ h => exec_ok_rx (i := .ctrlWrite c) rfl h

/-- Settles O29: what `Rx.latchPhase` writes, for both registers. -/
theorem phaseWordIsLatched : Obligations.PhaseWordIsLatched :=
  fun _ z d _ h => ⟨exec_ok_rx (i := .phase0Write z d) rfl h, exec_ok_rx (i := .phase1Write z d) rfl h⟩

/-- Settles O30: what `Rx.loseCtrl`, `Rx.loseFreq` and `Rx.losePhase` write, target by target. -/
theorem failedWordLosesItsTarget : Obligations.FailedWordLosesItsTarget :=
  fun _ _ _ c d z p h =>
    ⟨exec_err_rx (i := .ctrlWrite c) rfl h, exec_err_rx (i := .freq0Write d) rfl h,
      exec_err_rx (i := .freq1Write d) rfl h, exec_err_rx (i := .phase0Write z p) rfl h,
      exec_err_rx (i := .phase1Write z p) rfl h⟩

/-! ## Frequency halves (R44) -/

/-- R44: load mode is a known control word with B28 = 1. -/
theorem loadMode_iff (rx : Rx) : rx.loadMode = true ↔ ∃ c, rx.ctrl = .known c ∧ c.getLsbD 13 = true := by
  unfold Rx.loadMode
  cases rx.ctrl with
  | unknown => simp
  | known c => simp [getFlag, fieldPos]

/-- R44, a half for the other register in load mode: the pairing is broken and both registers are lost. -/
theorem latchFreq_other {rx : Rx} {r : Reg} {d d' : Half} (hl : rx.loadMode = true)
    (hp : rx.pend = .lo (regOther r) d') :
    rx.latchFreq r d = { rx with freq0 := .unknown, freq1 := .unknown, pend := .unknown } := by
  have hne : regOther r ≠ r := by cases r <;> decide
  simp [Rx.latchFreq, hl, hp, hne]

/-- R44, a half in load mode with the pending half unknown: the register is lost. -/
theorem latchFreq_pend_unknown {rx : Rx} {r : Reg} {d : Half} (hl : rx.loadMode = true) (hp : rx.pend = .unknown) :
    rx.latchFreq r d = rx.loseFreq r := by
  simp [Rx.latchFreq, Rx.loseFreq, hl, hp]

/-- R44, a half outside load mode: the register is lost. -/
theorem latchFreq_outside_loadMode {rx : Rx} {r : Reg} {d : Half} (hl : rx.loadMode = false) :
    rx.latchFreq r d = rx.loseFreq r := by
  simp [Rx.latchFreq, Rx.loseFreq, hl]

/-- R46: a lost frequency word takes its own register and the pending half with it, and nothing else. -/
theorem loseFreq_apply (rx : Rx) (r : Reg) :
    (rx.loseFreq r).freq r = .unknown ∧ (rx.loseFreq r).freq (regOther r) = rx.freq (regOther r) ∧
      (rx.loseFreq r).pend = .unknown := by
  cases r <;> exact ⟨rfl, rfl, rfl⟩

/-- R44 writes neither the control register nor a phase register, whichever arm is taken. -/
theorem latchFreq_frame (rx : Rx) (r : Reg) (d : Half) :
    (rx.latchFreq r d).ctrl = rx.ctrl ∧ (rx.latchFreq r d).phase0 = rx.phase0 ∧
      (rx.latchFreq r d).phase1 = rx.phase1 := by
  unfold Rx.latchFreq
  cases r <;> repeat' split
  all_goals exact ⟨rfl, rfl, rfl⟩

/-- Settles O28: the arms of `Rx.latchFreq`, one law each. -/
theorem frequencyHalvesArePaired : Obligations.FrequencyHalvesArePaired := by
  intro s r d rest h
  have hlatch : ∃ t, exec (match r with | .r0 => .freq0Write d | .r1 => .freq1Write d) s = .next t ∧
      t.rx = s.rx.latchFreq r d := by
    cases r
    · exact exec_ok_rx (i := .freq0Write d) rfl h
    · exact exec_ok_rx (i := .freq1Write d) rfl h
  obtain ⟨t, hexec, hrx⟩ := hlatch
  obtain ⟨hctrl, hphase0, hphase1⟩ := latchFreq_frame s.rx r d
  rw [← loadMode_iff, Bool.not_eq_true]
  refine ⟨t, hexec, by rw [hrx, hctrl], by rw [hrx, hphase0], by rw [hrx, hphase1], fun hl => ⟨?_, ?_, ?_, ?_⟩, ?_⟩
  · intro hp
    rw [hrx, latchFreq_first hl hp]
    exact ⟨rfl, rfl, rfl⟩
  · intro d' hp
    rw [hrx, latchFreq_second hl hp]
    cases r <;> exact ⟨rfl, rfl, rfl⟩
  · intro d' hp
    rw [hrx, latchFreq_other hl hp]
    exact ⟨rfl, rfl, rfl⟩
  · intro hp
    rw [hrx, latchFreq_pend_unknown hl hp]
    exact loseFreq_apply s.rx r
  · intro hl
    rw [hrx, latchFreq_outside_loadMode hl]
    exact loseFreq_apply s.rx r

/-! ## The output (R47) and power-on (R42) -/

theorem freq_regOfBit (rx : Rx) (b : Bool) : rx.freq (regOfBit b) = if b then rx.freq1 else rx.freq0 := by
  cases b <;> rfl

theorem phase_regOfBit (rx : Rx) (b : Bool) : rx.phase (regOfBit b) = if b then rx.phase1 else rx.phase0 := by
  cases b <;> rfl

/-- Settles O31: the three cases of `Rx.out`, with the bit positions of R22. -/
theorem outputOfTheReceiverView : Obligations.OutputOfTheReceiverView := by
  refine fun rx => ⟨fun hc => ?_, fun c hc hreset => ?_, fun c hc hreset => ?_⟩
  · simp [Rx.out, hc]
  · have hflag : getFlag c .reset = true := hreset
    simp only [Rx.out, hc, hflag, if_true]
  · have hflag : getFlag c .reset = false := hreset
    simp only [Rx.out, hc, hflag, Rx.selected, freq_regOfBit, phase_regOfBit]
    rfl

/-- Settles O51: `State.reset` names every one of these values. -/
theorem powerOnState : Obligations.PowerOnState := ⟨rfl, rfl, rfl, rfl, rfl, rfl, rfl⟩

/-! ## Flags (R22, R113) -/

/-- R113: bit by bit, a flag write puts `b` at the flag's position and leaves every other bit. -/
theorem setFlag_bit (c : Word) (f : Field) (b : Bool) (k : Nat) :
    (setFlag c f b).getLsbD k = if k = fieldPos f then b else c.getLsbD k := by
  have hf := fieldPos_lt f
  simp only [setFlag, BitVec.getLsbD_or, BitVec.getLsbD_and, BitVec.getLsbD_not, BitVec.getLsbD_shiftLeft,
    BitVec.getLsbD_setWidth, BitVec.getLsbD_ofBool]
  rcases Nat.lt_trichotomy k (fieldPos f) with hlt | heq | hgt
  · have hk : k < 16 := by omega
    simp [hlt, hk, Nat.ne_of_lt hlt]
  · simp [heq, hf]
  · have hne : k - fieldPos f ≠ 0 := by omega
    rcases Nat.lt_or_ge k 16 with hk | hk
    · simp [hk, hne, Nat.ne_of_gt hgt]
    · simp [hne, Nat.ne_of_gt hgt, Nat.not_lt.2 hk, BitVec.getLsbD_of_ge c k hk]

/-- Settles O44: the table of positions, the definitions of `getFlag` and `setFlag`, and `setFlag_bit`. -/
theorem flagWriteChangesOneBit : Obligations.FlagWriteChangesOneBit := by
  refine ⟨rfl, fun _ _ => rfl, fun c f b => ?_, setFlag_bit, runInternal_set⟩
  cases b <;> rfl

end Sys2Proof.Machine

/-! SUPPORT. The invariant of the block (State.Inv) is kept by every step: how the order of the words (R253) goes on
over one operation and over each command's program, then the engine, then the step. -/

namespace Sys2Proof.Machine

/-! ## The order of the words (R253) -/

/-- No high half is awaited: a command may begin or end, and any word but a second half may follow. -/
def WordOrder.between : WordOrder → Bool
  | .free | .armed => true
  | .low _ => false

@[simp] theorem free_between : WordOrder.free.between = true := by decide

/-- Where a control word with the cache `c` leads. -/
def WordOrder.afterCtrl (c : Word) : WordOrder := if getFlag c .b28 then .armed else .free

@[simp] theorem afterCtrl_between (c : Word) : (WordOrder.afterCtrl c).between = true := by
  unfold WordOrder.afterCtrl; split <;> rfl

@[simp] theorem afterCtrl_b28_set (c : Word) : WordOrder.afterCtrl (setFlag c .b28 true) = .armed := by
  simp [WordOrder.afterCtrl]

@[simp] theorem keepsOrder_nil (q : WordOrder) (c : Word) : keepsOrder q c [] = q.between := by cases q <;> rfl

@[simp] theorem keepsOrder_set (q : WordOrder) (c : Word) (f : Field) (b : Bool) (ops : List MicroOp) :
    keepsOrder q c (.set f b :: ops) = keepsOrder q (setFlag c f b) ops := by cases q <;> rfl

@[simp] theorem keepsOrder_fsm (q : WordOrder) (c : Word) (t : FsmTarget) (ops : List MicroOp) :
    keepsOrder q c (.fsm t :: ops) = keepsOrder q c ops := by cases q <;> rfl

/-- The word at the head of a program must be one that may stand there, and the rest follows it. -/
theorem keepsOrder_head {c w : Word} {ops : List MicroOp} (h : headWord c ops = some w) (q : WordOrder) :
    keepsOrder q c ops = (q.word (decodeWire w) .ok).elim false fun q' => keepsOrder q' c ops.tail := by
  match ops with
  | .emitCtrl :: ops | .emit w' :: ops =>
    cases h
    cases q <;> rw [keepsOrder] <;> split <;> next hword => rw [hword]; rfl

theorem keepsOrder_emit {q q' : WordOrder} {w : Word} (h : q.word (decodeWire w) .ok = some q') (c : Word)
    (ops : List MicroOp) : keepsOrder q c (.emit w :: ops) = keepsOrder q' c ops := by
  rw [keepsOrder_head rfl, h]; rfl

/-- A control word may stand anywhere but between two halves, and arms the order exactly if its B28 is 1. -/
theorem keepsOrder_emitCtrl {q : WordOrder} (h : q.between = true) (c : Word) (ops : List MicroOp) :
    keepsOrder q c (.emitCtrl :: ops) = keepsOrder (.afterCtrl c) c ops := by
  have hb28 : getFlag (packCtrl (c.extractLsb' 0 14)) .b28 = getFlag c .b28 := getFlag_ctrlWord c .b28
  have hword : q.word (decodeWire (ctrlWord c)) .ok = some (.afterCtrl c) := by
    rw [decodeWire_ctrlWord]
    cases q with
    | low r => cases h
    | free | armed => simp [WordOrder.word, WordOrder.afterCtrl, hb28]
  rw [keepsOrder_head rfl, hword]; rfl

/-- R64: after a control word with B28 = 1 the two halves of a frequency stand in order. -/
@[simp] theorem keepsOrder_halves (r : Reg) (d d' : Half) (c : Word) (ops : List MicroOp) :
    keepsOrder .armed c (.emit (freqWordTagged r d) :: .emit (freqWordTagged r d') :: ops) = keepsOrder .free c ops := by
  have hlow : WordOrder.armed.word (decodeWire (freqWordTagged r d)) .ok = some (.low r) := by
    rw [decodeWire_freqWordTagged]; cases r <;> rfl
  have hhigh : (WordOrder.low r).word (decodeWire (freqWordTagged r d')) .ok = some .free := by
    rw [decodeWire_freqWordTagged]; cases r <;> rfl
  rw [keepsOrder_emit hlow, keepsOrder_emit hhigh]

/-- A phase word may stand anywhere but between two halves. -/
theorem keepsOrder_phase {q : WordOrder} (h : q.between = true) (r : Reg) (d : PhaseWord) (c : Word)
    (ops : List MicroOp) : keepsOrder q c (.emit (phaseWordTagged r d) :: ops) = keepsOrder .free c ops := by
  refine keepsOrder_emit ?_ c ops
  rw [decodeWire_phaseWordTagged]
  cases q with
  | low r' => cases h
  | free | armed => cases r <;> rfl

@[simp] theorem keepsOrder_waveSets (q : WordOrder) (c : Word) (w : Wave) (ops : List MicroOp) :
    keepsOrder q c (waveSets w ++ ops) = keepsOrder q (setWave c w) ops := by
  cases w <;> simp [waveSets, setWave]

/-- A word that may stand where it does may fail there, and then anything may follow. -/
theorem word_err_of_ok {q q' : WordOrder} {i : Instr} (h : q.word i .ok = some q') (e : TransportError) :
    q.word i (.err e) = some .free := by
  cases i with
  | ctrlWrite | phase0Write | phase1Write =>
    cases q with
    | low r => cases h
    | free | armed => rfl
  | freq0Write | freq1Write =>
    have hfreq : q.freq _ = some q' := h
    simp [WordOrder.word, hfreq]
  | init | setbit | flush | setfreq | setphase | selfreq | selphase | setwave | rstassert | rstrelease | apply => cases h

theorem wordOrder_append (q : Option WordOrder) (log : List Sent) (e : Sent) :
    wordOrder q (log ++ [e]) = (wordOrder q log).bind (·.word (decodeWire e.word) e.result) := by
  induction log generalizing q with
  | nil => cases q <;> rfl
  | cons e' log ih =>
    cases q with
    | none => rfl
    | some q => exact ih _

/-! ## Programs that wait -/

theorem waitingProg_cons {op : MicroOp} {ops : List MicroOp} (h : waitingProg (op :: ops) = true) :
    waitingOp op = true ∧ waitingProg ops = true ∧ (op = .fsm .idle → ops = []) := by
  by_cases hop : op = .fsm .idle
  · subst hop
    have hnil : ops = [] := List.isEmpty_iff.1 h
    subst hnil
    exact ⟨rfl, rfl, fun _ => rfl⟩
  · have hand : (waitingOp op && waitingProg ops) = true := by
      rwa [waitingProg] at h
      exact hop
    rw [Bool.and_eq_true] at hand
    exact ⟨hand.1, hand.2, fun e => absurd e hop⟩

theorem waitingProg_tail {ops : List MicroOp} (h : waitingProg ops = true) : waitingProg ops.tail = true := by
  cases ops with
  | nil => rfl
  | cons op ops => exact (waitingProg_cons h).2.1

@[simp] theorem waitingProg_nil : waitingProg [] = true := rfl

@[simp] theorem waitingProg_idle : waitingProg [.fsm .idle] = true := rfl

@[simp] theorem waitingProg_emitCtrl (ops : List MicroOp) : waitingProg (.emitCtrl :: ops) = waitingProg ops := rfl

/-- Every SET but that of a sleep bit may wait (R22). -/
theorem waitingProg_set {f : Field} (h1 : f ≠ .sleep1) (h12 : f ≠ .sleep12) (b : Bool) (ops : List MicroOp) :
    waitingProg (.set f b :: ops) = waitingProg ops := by
  cases f with
  | sleep1 => exact absurd rfl h1
  | sleep12 => exact absurd rfl h12
  | reset | mode | opbiten | fsel | psel | div2 | b28 => rfl

@[simp] theorem waitingProg_waveSets (w : Wave) (ops : List MicroOp) :
    waitingProg (waveSets w ++ ops) = waitingProg ops := by cases w <;> rfl

@[simp] theorem waitingProg_freq (r : Reg) (d : Half) (ops : List MicroOp) :
    waitingProg (.emit (freqWordTagged r d) :: ops) = waitingProg ops := by
  rw [waitingProg, waitingOp, decodeWire_freqWordTagged, freqWordTagged_tag]
  · cases r <;> rfl
  · nofun

@[simp] theorem waitingProg_phase (r : Reg) (d : PhaseWord) (ops : List MicroOp) :
    waitingProg (.emit (phaseWordTagged r d) :: ops) = waitingProg ops := by
  rw [waitingProg, waitingOp, decodeWire_phaseWordTagged, phaseWordTagged, packPhase_tag]
  · cases r <;> rfl
  · nofun

/-! ## The engine -/

/-- What holds of the block while the engine runs `ops`: a command is in progress and no word is in flight. -/
structure State.Running (s : State) (ops : List MicroOp) : Prop where
  paramsWf  : s.params.wf = true
  hardwired : s.ctrl &&& ~~~namedBits = 0
  busy      : s.busy = true
  noRequest : s.txReq = false
  started   : s.fsm ≠ .uninit
  waiting   : waitingProg ops = true
  reconf    : MicroOp.fsm .idle ∈ ops → s.fsm = .reconf
  replayed  : s.rx = replay s.log
  ordered   : ∃ q, wordOrder (some .free) s.log = some q ∧ keepsOrder q s.ctrl ops = true

/-- At an emit the engine stops in a state that meets the invariant. -/
theorem State.Running.present_inv {s : State} {op : MicroOp} {ops : List MicroOp} {w : Word} (h : s.Running (op :: ops))
    (hw : headWord s.ctrl (op :: ops) = some w) : (s.present w (op :: ops)).Inv where
  paramsWf := h.paramsWf
  hardwired := h.hardwired
  busyReq := h.busy
  idleEmpty hb := by rw [present_busy, h.busy] at hb; cases hb
  inFlight _ := hw
  waiting := h.waiting
  reconf := h.reconf
  uninit hu := absurd hu h.started
  replayed := h.replayed
  ordered := h.ordered

/-- At the end of a program the engine stops in a state that meets the invariant. -/
theorem State.Running.complete_inv {s : State} (h : s.Running []) : s.complete.Inv where
  paramsWf := h.paramsWf
  hardwired := h.hardwired
  busyReq := h.noRequest.symm
  idleEmpty _ := ⟨rfl, rfl⟩
  inFlight hb := by cases hb
  waiting := rfl
  reconf hm := by cases hm
  uninit hu := absurd hu h.started
  replayed := h.replayed
  ordered := h.ordered

/-- The engine runs to a state that meets the invariant. -/
theorem State.Running.inv {s : State} {ops : List MicroOp} (h : s.Running ops) : (runInternal s ops).Inv := by
  induction ops generalizing s with
  | nil => exact h.complete_inv
  | cons op ops ih =>
    obtain ⟨hop, hops, hlast⟩ := waitingProg_cons h.waiting
    obtain ⟨q, hq, hkeeps⟩ := h.ordered
    cases op with
    | set f b =>
      rw [keepsOrder_set] at hkeeps
      exact ih { h with
        hardwired := (setFlag_unnamed s.ctrl f b).trans h.hardwired
        waiting := hops
        reconf := fun hm => h.reconf (List.mem_cons_of_mem _ hm)
        ordered := ⟨q, hq, hkeeps⟩ }
    | load c => cases hop
    | fsm t =>
      cases t with
      | reconf => cases hop
      | idle =>
        rw [keepsOrder_fsm] at hkeeps
        obtain rfl := hlast rfl
        exact ih { h with
          started := nofun
          waiting := hops
          reconf := nofun
          ordered := ⟨q, hq, hkeeps⟩ }
    | emitCtrl => exact h.present_inv rfl
    | emit w => exact h.present_inv rfl

/-! ## The accept step -/

/-- What is left of APPLY once it has entered RECONF keeps the order: the halves follow the control word that has
B28 = 1. -/
theorem applyProgram_keepsOrder {q : WordOrder} (h : q.between = true) (refclk : Hertz) (r : Reg) (F : Hertz)
    (P : Angle) (w : Wave) (c : Word) : keepsOrder q c (applyProgram refclk r F P w).tail = true := by
  simp [applyProgram, freqEmits, phaseEmit, h, keepsOrder_emitCtrl, keepsOrder_phase]

/-- What is left of APPLY once it has entered RECONF may wait. -/
theorem applyProgram_waiting (refclk : Hertz) (r : Reg) (F : Hertz) (P : Angle) (w : Wave) :
    waitingProg (applyProgram refclk r F P w).tail = true := by
  simp [applyProgram, freqEmits, phaseEmit, waitingProg_set]

/-- The program of a command that is not composite keeps the order. -/
theorem commandProgram_keepsOrder {q : WordOrder} {i : Instr} (h : q.between = true) (hinit : i ≠ .init)
    (happly : ∀ r w, i ≠ .apply r w) (p : Params) (cmd : Command) (c : Word) :
    keepsOrder q c (commandProgram p i cmd) = true := by
  cases i with
  | init => exact absurd rfl hinit
  | apply r w => exact absurd rfl (happly r w)
  | setfreq r => simp [commandProgram, freqEmits, h, keepsOrder_emitCtrl]
  | setphase r => simp [commandProgram, phaseEmit, h, keepsOrder_phase]
  | setbit | flush | selfreq | selphase | setwave | rstassert | rstrelease =>
    simp [commandProgram, h, keepsOrder_emitCtrl]
  | ctrlWrite | freq0Write | freq1Write | phase0Write | phase1Write => simp [commandProgram, h]

/-- The program of a command that is neither composite nor SETBIT may wait as it is, and holds no FSM(IDLE). -/
theorem commandProgram_waiting {i : Instr} (hinit : i ≠ .init) (happly : ∀ r w, i ≠ .apply r w)
    (hsetbit : ∀ f v, i ≠ .setbit f v) (p : Params) (cmd : Command) :
    waitingProg (commandProgram p i cmd) = true ∧ MicroOp.fsm .idle ∉ commandProgram p i cmd := by
  cases i with
  | init => exact absurd rfl hinit
  | apply r w => exact absurd rfl (happly r w)
  | setbit f v => exact absurd rfl (hsetbit f v)
  | setfreq | setphase => simp [commandProgram, freqEmits, phaseEmit, waitingProg_set]
  | setwave w => cases w <;> simp [commandProgram, waveSets, waitingProg_set]
  | flush | selfreq | selphase | rstassert | rstrelease => simp [commandProgram, waitingProg_set]
  | ctrlWrite | freq0Write | freq1Write | phase0Write | phase1Write => simp [commandProgram]

/-- A block that meets the invariant and is not busy runs the rest `ops` of an accepted program, once the program's
first operations have left the cache `c` and the sequencer in `f`. -/
theorem State.Inv.running {s : State} (h : s.Inv) (hb : s.busy = false) {c : Word} {f : Fsm} {ops : List MicroOp}
    (hc : c &&& ~~~namedBits = 0) (hf : f ≠ .uninit) (hwait : waitingProg ops = true)
    (hreconf : MicroOp.fsm .idle ∈ ops → f = .reconf) (hord : ∀ q : WordOrder, q.between = true → keepsOrder q c ops = true)
    (rest : List Command) (prog : List MicroOp) :
    { s.take rest with uprog := prog, wcount := 0, busy := true, ctrl := c, fsm := f : State }.Running ops where
  paramsWf := h.paramsWf
  hardwired := hc
  busy := rfl
  noRequest := h.busyReq.symm.trans hb
  started := hf
  waiting := hwait
  reconf := hreconf
  replayed := h.replayed
  ordered := by
    obtain ⟨q, hq, hkeeps⟩ := h.ordered
    rw [(h.idleEmpty hb).1, keepsOrder_nil] at hkeeps
    exact ⟨q, hq, hord q hkeeps⟩

/-- A command that is not refused is INIT, or the block is initialised (R191). -/
theorem commandCheck_none {s : State} {i : Instr} {cmd : Command} (hi : i.isCommand = true)
    (h : commandCheck s i cmd = none) : i = .init ∨ s.fsm ≠ .uninit := by
  by_cases hf : s.fsm = .uninit
  · cases i with
    | init => exact .inl rfl
    | setfreq | apply =>
      rw [commandCheck, checkFreq, if_pos hf] at h
      cases h
    | setbit | flush | setphase | selfreq | selphase | setwave | rstassert | rstrelease =>
      rw [commandCheck, checkInitialised_some hf] at h
      cases h
    | ctrlWrite | freq0Write | freq1Write | phase0Write | phase1Write => cases hi
  · exact .inr hf

/-- A command that is neither composite nor SETBIT starts with its whole program left to run. -/
theorem State.Inv.start_plain {s : State} {i : Instr} (h : s.Inv) (hb : s.busy = false) (hf : s.fsm ≠ .uninit)
    (hinit : i ≠ .init) (happly : ∀ r w, i ≠ .apply r w) (hsetbit : ∀ f v, i ≠ .setbit f v) (cmd : Command)
    (rest : List Command) : ((s.take rest).start (commandProgram s.params i cmd)).Inv := by
  obtain ⟨hwait, hidle⟩ := commandProgram_waiting hinit happly hsetbit s.params cmd
  exact (h.running hb h.hardwired hf hwait (fun hm => absurd hm hidle)
    (fun _ hq => commandProgram_keepsOrder hq hinit happly s.params cmd s.ctrl) rest _).inv

/-- An accepted command runs to its first emit, or to its end, in a state that meets the invariant. -/
theorem State.Inv.start {s : State} {i : Instr} {cmd : Command} (h : s.Inv) (hb : s.busy = false)
    (hi : i.isCommand = true) (hcheck : commandCheck s i cmd = none) (rest : List Command) :
    ((s.take rest).start (commandProgram s.params i cmd)).Inv := by
  have hstarted : i ≠ .init → s.fsm ≠ .uninit := (commandCheck_none hi hcheck).resolve_left
  cases i with
  | init =>
    exact (h.running hb (loadCtrl_unnamed s.params.ctrlInit) (f := .reconf) nofun (applyProgram_waiting ..)
      (fun _ => rfl) (fun _ hq => applyProgram_keepsOrder hq ..) rest _).inv
  | apply r w =>
    exact (h.running hb h.hardwired (f := .reconf) nofun (applyProgram_waiting ..)
      (fun _ => rfl) (fun _ hq => applyProgram_keepsOrder hq ..) rest _).inv
  | setbit f v =>
    exact (h.running hb ((setFlag_unnamed s.ctrl f v).trans h.hardwired) (hstarted nofun) (ops := []) rfl nofun
      (fun q hq => (keepsOrder_nil q _).trans hq) rest _).inv
  | flush | setfreq | setphase | selfreq | selphase | setwave | rstassert | rstrelease =>
    refine h.start_plain hb (hstarted nofun) ?_ ?_ ?_ cmd rest <;> nofun
  | ctrlWrite | freq0Write | freq1Write | phase0Write | phase1Write => cases hi

/-- A refusal keeps the invariant: only `resp` and the command port change. -/
theorem State.Inv.refuse {s : State} (h : s.Inv) (rest : List Command) (r : RefuseReason) :
    ((s.take rest).refuse r).Inv where
  paramsWf := h.paramsWf
  hardwired := h.hardwired
  busyReq := h.busyReq
  idleEmpty := h.idleEmpty
  inFlight := h.inFlight
  waiting := h.waiting
  reconf := h.reconf
  uninit := h.uninit
  replayed := h.replayed
  ordered := h.ordered

theorem accept_keeps_inv {s t : State} {i : Instr} (h : s.Inv) (hi : i.isCommand = true) (hexec : exec i s = .next t) :
    t.Inv := by
  rw [exec_command hi] at hexec
  rcases accept_cases hexec with rfl | ⟨c, rest, r, -, -, -, rfl⟩ | ⟨c, rest, hb, -, hcheck, rfl⟩
  · exact h
  · exact h.refuse rest r
  · exact h.start hb hi hcheck rest

/-! ## The transmit-completion step -/

theorem replay_append (log : List Sent) (e : Sent) : replay (log ++ [e]) = (replay log).after e :=
  List.foldl_concat ..

theorem State.Inv.started {s : State} (h : s.Inv) (hb : s.busy = true) : s.fsm ≠ .uninit := by
  intro hu
  rw [(h.uninit hu).1] at hb
  cases hb

/-- The word in flight may stand where it does, and what is left of the program keeps the order after it. -/
theorem State.Inv.word {s : State} (h : s.Inv) (hb : s.busy = true) :
    ∃ q q', wordOrder (some .free) s.log = some q ∧ q.word (decodeWire s.txWord) .ok = some q' ∧
      keepsOrder q' s.ctrl s.uprog.tail = true := by
  obtain ⟨q, hq, hkeeps⟩ := h.ordered
  rw [keepsOrder_head (h.inFlight hb)] at hkeeps
  cases hword : q.word (decodeWire s.txWord) .ok with
  | none => rw [hword] at hkeeps; cases hkeeps
  | some q' => rw [hword] at hkeeps; exact ⟨q, q', hq, hword, hkeeps⟩

/-- R192, `Ok`: the rest of the program runs on from a word that completed. -/
theorem State.Inv.sent_running {s : State} (h : s.Inv) (hb : s.busy = true) (rest : List TxResult) :
    { s.sent s.txWord .ok rest (s.rx.after ⟨s.txWord, .ok⟩) with wcount := s.wcount + 1 : State }.Running
      s.uprog.tail where
  paramsWf := h.paramsWf
  hardwired := h.hardwired
  busy := hb
  noRequest := rfl
  started := h.started hb
  waiting := waitingProg_tail h.waiting
  reconf hm := h.reconf (List.mem_of_mem_tail hm)
  replayed := by rw [sent_rx, sent_log, replay_append, h.replayed]
  ordered := by
    obtain ⟨q, q', hq, hword, hkeeps⟩ := h.word hb
    exact ⟨q', by rw [sent_log, wordOrder_append, hq]; exact hword, hkeeps⟩

/-- R192, `Err`: the command ends in a state that meets the invariant. -/
theorem State.Inv.abort {s : State} (h : s.Inv) (hb : s.busy = true) (e : TransportError) (rest : List TxResult) :
    ((s.sent s.txWord (.err e) rest (s.rx.after ⟨s.txWord, .err e⟩)).abort s.txWord e).Inv where
  paramsWf := h.paramsWf
  hardwired := h.hardwired
  busyReq := rfl
  idleEmpty _ := ⟨rfl, rfl⟩
  inFlight := nofun
  waiting := rfl
  reconf := nofun
  uninit hu := absurd hu (h.started hb)
  replayed := by rw [abort_rx, sent_rx, abort_log, sent_log, replay_append, h.replayed]
  ordered := by
    obtain ⟨q, q', hq, hword, -⟩ := h.word hb
    exact ⟨.free, by rw [abort_log, sent_log, wordOrder_append, hq]; exact word_err_of_ok hword e, rfl⟩

theorem transmit_keeps_inv {s t : State} (h : s.Inv) (hexec : exec (decodeWire s.txWord) s = .next t) : t.Inv := by
  rw [exec_wire (decodeWire_isCommand _), encode_decodeWire] at hexec
  rcases transmit_cases hexec with rfl | ⟨rest, hb, -, -, rfl⟩ | ⟨e, rest, hb, -, -, rfl⟩
  · exact h
  · exact (h.sent_running hb rest).inv
  · exact h.abort hb e rest

/-- The command port's decoder answers a command, never a wire word (R85). -/
theorem decodeHeader_isCommand {hdr : Word} {i : Instr} (h : decodeHeader hdr = .cmd i) : i.isCommand = true := by
  unfold decodeHeader decodeOperands at h
  repeat' split at h
  all_goals cases h
  all_goals rfl

/-- Settles O53: a step waits, refuses a header, accepts a command or completes the word in flight, and each keeps the
invariant. -/
theorem stepKeepsTheInvariant : Obligations.StepKeepsTheInvariant := by
  intro s t h hstep
  rcases step_cases hstep with ⟨-, rfl⟩ | ⟨r, rest, -, rfl⟩ | ⟨i, hrun, hexec⟩
  · exact h
  · exact h.refuse rest r
  · rcases event_run hrun with ⟨c, rest, -, -, hdecode⟩ | ⟨res, rest, -, -, -, rfl⟩
    · exact accept_keeps_inv h (decodeHeader_isCommand hdecode) hexec
    · exact transmit_keeps_inv h hexec

end Sys2Proof.Machine

/-! SUPPORT. The block does not depend on the observations, the receiver view and the record of transmits (R40, R200). -/

namespace Sys2Proof.Machine

/-- The same block with another receiver view and another record of transmits. -/
def State.observed (s : State) (x : Rx) (l : List Sent) : State := { s with rx := x, log := l }

/-- The engine hands the observations through. -/
theorem runInternal_observed (s : State) (x : Rx) (l : List Sent) (ops : List MicroOp) :
    runInternal (s.observed x l) ops = (runInternal s ops).observed x l := by
  induction ops generalizing s with
  | nil => rfl
  | cons op ops ih =>
    cases op with
    | set f b => exact ih { s with ctrl := setFlag s.ctrl f b }
    | load c => exact ih { s with ctrl := loadCtrl c }
    | fsm t => exact ih { s with fsm := t.toFsm }
    | emitCtrl | emit => rfl

/-- No check reads the observations. -/
theorem commandCheck_observed (s : State) (x : Rx) (l : List Sent) (i : Instr) :
    commandCheck (s.observed x l) i = commandCheck s i := by
  funext c; cases i <;> rfl

/-- The accept step hands the observations through. -/
theorem accept_observed {s t : State} {check prog} (h : accept s check prog = .next t) (x : Rx) (l : List Sent) :
    accept (s.observed x l) check prog = .next (t.observed x l) := by
  cases hb : s.busy with
  | true => rw [accept_busy hb] at h; cases h; exact accept_busy (s := s.observed x l) hb _ _
  | false =>
    cases hc : s.cmds with
    | nil => rw [accept_empty hc] at h; cases h; exact accept_empty (s := s.observed x l) hc _ _
    | cons c rest =>
      cases hr : check c with
      | some r => rw [accept_refused hb hc hr] at h; cases h; exact accept_refused (s := s.observed x l) hb hc hr
      | none =>
        rw [accept_started hb hc hr] at h
        cases h
        refine (accept_started (s := s.observed x l) hb hc hr).trans ?_
        exact congrArg _ (runInternal_observed
          { s.take rest with uprog := prog c, wcount := 0, busy := true } x l (prog c))

/-- R192: with no answered word in flight a completion step does nothing. -/
theorem transmit_unanswered {s : State} (h : ∀ res rest, ¬s.Answered res rest) (w : Word) (latched lost : Rx) :
    transmit s w latched lost = .next s := by
  unfold transmit
  split
  · next hb =>
    rw [Bool.and_eq_true] at hb
    split
    · rfl
    · next ha => exact absurd ⟨hb.1, hb.2, ha⟩ (h _ _)
    · next ha => exact absurd ⟨hb.1, hb.2, ha⟩ (h _ _)
  · rfl

/-- The completion step writes the observations and reads nothing of them but what it writes. -/
theorem transmit_observed {s t : State} {w : Word} {latched lost : Rx} (h : transmit s w latched lost = .next t)
    (x : Rx) (l : List Sent) (latched' lost' : Rx) :
    ∃ x' l', transmit (s.observed x l) w latched' lost' = .next (t.observed x' l') := by
  by_cases hans : ∃ res rest, s.Answered res rest
  · obtain ⟨res, rest, hb, hr, ha⟩ := hans
    cases res with
    | ok =>
      rw [transmit_ok hb hr ha] at h
      cases h
      refine ⟨latched', l ++ [⟨w, .ok⟩], (transmit_ok (s := s.observed x l) hb hr ha ..).trans ?_⟩
      exact congrArg _ (runInternal_observed { s.sent w .ok rest latched with wcount := s.wcount + 1 } ..)
    | err e =>
      rw [transmit_err hb hr ha] at h
      cases h
      exact ⟨lost', l ++ [⟨w, .err e⟩], transmit_err (s := s.observed x l) hb hr ha ..⟩
  · rw [transmit_unanswered fun res rest ha => hans ⟨res, rest, ha⟩] at h
    cases h
    exact ⟨x, l, transmit_unanswered (s := s.observed x l)
      (fun res rest ha => hans ⟨res, rest, ha.busy, ha.request, ha.answered⟩) ..⟩

/-- Two blocks that differ in the observations alone run an instruction alike. -/
theorem exec_observed {i : Instr} {s t : State} (h : exec i s = .next t) (x : Rx) (l : List Sent) :
    ∃ x' l', exec i (s.observed x l) = .next (t.observed x' l') := by
  cases hi : i.isCommand with
  | true =>
    rw [exec_command hi] at h ⊢
    rw [commandCheck_observed]
    exact ⟨x, l, accept_observed h x l⟩
  | false =>
    rw [exec_wire hi] at h ⊢
    exact transmit_observed h x l _ _

/-- Settles O57: the next event is the same, a wait and a refusal hand the observations through, and an instruction
runs alike. -/
theorem blockNeverReadsTheDevice : Obligations.BlockNeverReadsTheDevice := by
  intro s t x l h
  change ∃ x' l', step (s.observed x l) = .next (t.observed x' l')
  have hevent : (s.observed x l).event = s.event := rfl
  rcases step_cases h with ⟨he, ht⟩ | ⟨r, rest, he, ht⟩ | ⟨i, he, hexec⟩
  · exact ⟨x, l, by rw [step, hevent, he, ht]⟩
  · exact ⟨x, l, by rw [step, hevent, he, ht]; rfl⟩
  · rw [step, hevent, he]
    exact exec_observed hexec x l

end Sys2Proof.Machine

/-! SUPPORT. A header that decodes to a command is that command's header (R80, R85). -/

namespace Sys2Proof

theorem code_of_opcodeOf {n : BitVec 4} {op : Opcode} (h : opcodeOf n.toNat = some op) : op.code = n := by
  cases op <;> decide +revert

theorem code_of_fieldOfCode {n : BitVec 4} {f : Field} (h : fieldOfCode n.toNat = some f) : f.code = n := by
  cases f <;> decide +revert

@[simp] theorem bit_regOfBit (b : Bool) : (regOfBit b).bit = b := by cases b <;> rfl

/-- R84: the code of a waveform read from two bits is those two bits. -/
theorem code_hdrWave (hdr : Word) : (hdrWave hdr).code = hdr.extractLsb' 9 2 := by
  have hbits (c : BitVec 2) : (waveOfCode (c.getLsbD 1) (c.getLsbD 0)).code = c := by decide +revert
  simpa [hdrWave] using hbits (hdr.extractLsb' 9 2)

/-- R80: a header is packed from its fields, its reserved bits 0. -/
theorem packHeader_fields {hdr : Word} {op : Opcode} (hop : op.code = hdrOp hdr) (hreserved : hdr.extractLsb' 0 4 = 0#4) :
    packHeader op (hdr.getLsbD 11) (hdr.extractLsb' 9 2) (hdrFlag hdr) (hdrValue hdr) = hdr := by
  apply BitVec.eq_of_getLsbD_eq
  intro k hk
  rw [packHeader, ← hreserved, hop]
  simp only [hdrOp, hdrFlag, hdrValue, BitVec.getLsbD_append, BitVec.getLsbD_extractLsb', BitVec.getLsbD_ofBool]
  interval_cases k <;> simp

/-- R85: outside the used mask a header that passed the check has no bit set. -/
theorem unused_bit {hdr : Word} {m : BitVec 12} (h : hdrLow hdr &&& ~~~m = 0) {k : Nat} (hk : k < 12)
    (hm : m.getLsbD k = false) : hdr.getLsbD k = false := by
  have hbit : (hdrLow hdr &&& ~~~m).getLsbD k = false := by rw [h]; exact BitVec.getLsbD_zero
  simpa only [hdrLow, BitVec.getLsbD_and, BitVec.getLsbD_not, BitVec.getLsbD_extractLsb', hm, hk, Nat.zero_add,
    decide_true, Bool.true_and, Bool.not_false, Bool.and_true] using hbit

/-- R85: a field outside the used mask reads 0 in a header that passed the check. -/
theorem unused_field {hdr : Word} {m : BitVec 12} (h : hdrLow hdr &&& ~~~m = 0) {start len : Nat}
    (hlen : start + len ≤ 12) (hm : m.extractLsb' start len = 0#len) : hdr.extractLsb' start len = 0#len := by
  apply BitVec.eq_of_getLsbD_eq
  intro k hk
  have hmk := congrArg (·.getLsbD k) hm
  simp only [BitVec.getLsbD_extractLsb', hk, decide_true, Bool.true_and, BitVec.getLsbD_zero] at hmk ⊢
  exact unused_bit h (by omega) hmk

/-- R80 and R85: a header that decodes to a command is the word of that command. -/
theorem encode_of_decodeHeader {hdr : Word} {i : Instr} (h : decodeHeader hdr = .cmd i) : encode i = hdr := by
  unfold decodeHeader at h
  split at h
  · cases h
  next op hop =>
  split at h
  · next hz =>
    have hreg (hm : (usedMask op).getLsbD 11 = false) : hdr.getLsbD 11 = false := unused_bit hz (by omega) hm
    have hwave (hm : (usedMask op).extractLsb' 9 2 = 0#2) : hdr.extractLsb' 9 2 = 0#2 := unused_field hz (by omega) hm
    have hflag (hm : (usedMask op).extractLsb' 5 4 = 0#4) : hdrFlag hdr = 0#4 := unused_field hz (by omega) hm
    have hvalue (hm : (usedMask op).getLsbD 4 = false) : hdrValue hdr = false := unused_bit hz (by omega) hm
    have hpack := packHeader_fields (code_of_opcodeOf hop) (unused_field hz (by omega) (by cases op <;> rfl))
    cases op with
    | init | flush | rstassert | rstrelease =>
      cases h
      rwa [hreg rfl, hwave rfl, hflag rfl, hvalue rfl] at hpack
    | setfreq | setphase | selfreq | selphase =>
      cases h
      rwa [hwave rfl, hflag rfl, hvalue rfl, ← bit_regOfBit (hdr.getLsbD 11)] at hpack
    | setwave =>
      cases h
      rwa [hreg rfl, hflag rfl, hvalue rfl, ← code_hdrWave] at hpack
    | apply =>
      cases h
      rwa [hflag rfl, hvalue rfl, ← code_hdrWave, ← bit_regOfBit (hdr.getLsbD 11)] at hpack
    | setbit =>
      cases hf : fieldOfCode (hdrFlag hdr).toNat with
      | none => simp [decodeOperands, hf] at h
      | some f =>
        obtain rfl : .setbit f (hdrValue hdr) = i := by simpa [decodeOperands, hf] using h
        rwa [hreg rfl, hwave rfl, ← code_of_fieldOfCode hf] at hpack
  · cases h

end Sys2Proof

/-! SUPPORT. The sleep bits of the cache (R22): which operations leave them alone. -/

namespace Sys2Proof.Machine

/-- The operation writes neither sleep bit: it is no LOAD and no SET of one. -/
def sparesSleep : MicroOp → Bool
  | .set f _ => f != .sleep1 && f != .sleep12
  | .load _ => false
  | .fsm _ | .emitCtrl | .emit _ => true

/-- Two caches agree in the sleep bits. -/
def SameSleep (c c' : Word) : Prop :=
  getFlag c' .sleep1 = getFlag c .sleep1 ∧ getFlag c' .sleep12 = getFlag c .sleep12

theorem SameSleep.refl (c : Word) : SameSleep c c := ⟨rfl, rfl⟩

/-- A program without such a write leaves the sleep bits as they were. -/
theorem runInternal_sameSleep {s : State} {ops : List MicroOp} (h : ops.all sparesSleep = true) :
    SameSleep s.ctrl (runInternal s ops).ctrl := by
  induction ops generalizing s with
  | nil => exact .refl _
  | cons op ops ih =>
    rw [List.all_cons, Bool.and_eq_true] at h
    obtain ⟨hop, hops⟩ := h
    cases op with
    | set f b =>
      obtain ⟨hf1, hf12⟩ : f ≠ .sleep1 ∧ f ≠ .sleep12 := by simpa [sparesSleep] using hop
      obtain ⟨h1, h12⟩ := ih (s := { s with ctrl := setFlag s.ctrl f b }) hops
      rw [getFlag_setFlag, if_neg hf1.symm] at h1
      rw [getFlag_setFlag, if_neg hf12.symm] at h12
      exact ⟨h1, h12⟩
    | load c => cases hop
    | fsm t => exact ih (s := { s with fsm := t.toFsm }) hops
    | emitCtrl | emit => exact .refl _

/-- Only SETBIT and INIT have a program that writes a sleep bit (R22, R190, R195). -/
theorem commandProgram_sparesSleep {i : Instr} (hinit : i ≠ .init) (hsetbit : ∀ f v, i ≠ .setbit f v) (p : Params)
    (cmd : Command) : (commandProgram p i cmd).all sparesSleep = true := by
  cases i with
  | init => exact absurd rfl hinit
  | setbit f v => exact absurd rfl (hsetbit f v)
  | setwave w | apply r w => cases w <;> rfl
  | flush | setfreq | setphase | selfreq | selphase | rstassert | rstrelease => rfl
  | ctrlWrite | freq0Write | freq1Write | phase0Write | phase1Write => rfl

theorem sparesSleep_of_waitingOp {op : MicroOp} (h : waitingOp op = true) : sparesSleep op = true := by
  cases op with
  | set f b =>
    cases f with
    | sleep1 | sleep12 => cases h
    | reset | mode | opbiten | fsel | psel | div2 | b28 => rfl
  | load c => cases h
  | fsm | emitCtrl | emit => rfl

/-- A waiting program writes no sleep bit (R22). -/
theorem sparesSleep_of_waitingProg {ops : List MicroOp} (h : waitingProg ops = true) : ops.all sparesSleep = true := by
  induction ops with
  | nil => rfl
  | cons op ops ih =>
    obtain ⟨hop, hops, -⟩ := waitingProg_cons h
    rw [List.all_cons, sparesSleep_of_waitingOp hop, ih hops]
    rfl

/-- A command that is neither INIT nor SETBIT leaves the sleep bits as they were. -/
theorem accept_sameSleep {i : Instr} {s t : State} (hi : i.isCommand = true) (hinit : i ≠ .init)
    (hsetbit : ∀ f v, i ≠ .setbit f v) (h : exec i s = .next t) : SameSleep s.ctrl t.ctrl := by
  rw [exec_command hi] at h
  rcases accept_cases h with rfl | ⟨c, rest, r, -, -, -, rfl⟩ | ⟨c, rest, -, -, -, rfl⟩
  · exact .refl _
  · exact .refl _
  · exact runInternal_sameSleep (commandProgram_sparesSleep hinit hsetbit s.params c)

/-- A completed word leaves the sleep bits as they were, since what waits behind it writes none. -/
theorem transmit_sameSleep {s t : State} {w : Word} {latched lost : Rx} (hinv : s.Inv)
    (h : transmit s w latched lost = .next t) : SameSleep s.ctrl t.ctrl := by
  rcases transmit_cases h with rfl | ⟨rest, -, -, -, rfl⟩ | ⟨e, rest, -, -, -, rfl⟩
  · exact .refl _
  · exact runInternal_sameSleep (s := { s.sent w .ok rest latched with wcount := s.wcount + 1 })
      (sparesSleep_of_waitingProg (waitingProg_tail hinv.waiting))
  · exact .refl _

/-- Settles O56: a step that runs a command other than INIT and SETBIT, or completes a word, writes no sleep bit, and
any other step leaves the cache alone. -/
theorem sleepBitsChangeOnlyBySetbitAndInit : Obligations.SleepBitsChangeOnlyBySetbitAndInit := by
  intro s t hinv hstep hother
  rcases step_cases hstep with ⟨-, rfl⟩ | ⟨r, rest, -, rfl⟩ | ⟨i, hrun, hexec⟩
  · exact ⟨rfl, rfl⟩
  · exact ⟨rfl, rfl⟩
  · rcases event_run hrun with ⟨c, rest, hb, hc, hdecode⟩ | ⟨res, rest, -, -, -, rfl⟩
    · obtain ⟨hinit, hsetbit⟩ := hother c rest hb hc
      rw [← encode_of_decodeHeader hdecode] at hinit hsetbit
      exact accept_sameSleep (decodeHeader_isCommand hdecode) (fun e => hinit (congrArg encode e))
        (fun f v e => hsetbit f v (congrArg encode e)) hexec
    · rw [exec_wire (decodeWire_isCommand _)] at hexec
      exact transmit_sameSleep hinv hexec

end Sys2Proof.Machine

/-! SUPPORT. The staleness of the cache (R25) along whole commands. -/

namespace Sys2Proof.Machine

/-! ## Commands on the port -/

/-- R85: a command's header decodes to it. -/
theorem decodeHeader_encode {i : Instr} (hi : i.isCommand = true) : decodeHeader (encode i) = .cmd i := by
  cases i with
  | init => exact Laws.RoundTrip.init.1 rfl
  | setbit f v => exact (Laws.RoundTrip.setbit f v).1 rfl
  | flush => exact Laws.RoundTrip.flush.1 rfl
  | setfreq r => exact (Laws.RoundTrip.setfreq r).1 rfl
  | setphase r => exact (Laws.RoundTrip.setphase r).1 rfl
  | selfreq r => exact (Laws.RoundTrip.selfreq r).1 rfl
  | selphase r => exact (Laws.RoundTrip.selphase r).1 rfl
  | setwave w => exact (Laws.RoundTrip.setwave w).1 rfl
  | rstassert => exact Laws.RoundTrip.rstassert.1 rfl
  | rstrelease => exact Laws.RoundTrip.rstrelease.1 rfl
  | apply r w => exact (Laws.RoundTrip.apply r w).1 rfl
  | ctrlWrite | freq0Write | freq1Write | phase0Write | phase1Write => cases hi

@[simp] theorem start_log (s : State) (prog : List MicroOp) : (s.start prog).log = s.log := runInternal_log _ prog

@[simp] theorem start_answers (s : State) (prog : List MicroOp) : (s.start prog).answers = s.answers :=
  runInternal_answers _ prog

/-- A word that completes with an EMIT next: it goes on the record and the next word is in flight (R192). -/
theorem run_sent_emit {s : State} {w : Word} {ops : List MicroOp} {as : List TxResult} (h : s.Answered .ok as)
    (htail : s.uprog.tail = .emit w :: ops) (k : Nat) :
    ∃ s', run (k + 1) s = run k s' ∧ s'.busy = true ∧ s'.txReq = true ∧ s'.uprog.tail = ops ∧ s'.answers = as ∧
      s'.txWord = w ∧ s'.ctrl = s.ctrl ∧ s'.log = s.log ++ [⟨s.txWord, .ok⟩] := by
  refine ⟨_, run_sent h k, ?_⟩
  rw [htail]
  exact ⟨h.busy, rfl, rfl, rfl, rfl, rfl, rfl⟩

/-- The word in flight and the words of the EMITs behind it all complete: they go on the record in order and the cache
stays (R192). -/
theorem run_emits {s : State} {ws : List Word} {as : List TxResult} (hbusy : s.busy = true) (hreq : s.txReq = true)
    (htail : s.uprog.tail = ws.map .emit) (ha : s.answers = List.replicate (ws.length + 1) .ok ++ as) :
    ∃ t, run (ws.length + 1) s = .next t ∧ t.ctrl = s.ctrl ∧ t.log = s.log ++ allOk (s.txWord :: ws) := by
  induction ws generalizing s with
  | nil =>
    refine ⟨_, run_sent ⟨hbusy, hreq, ha⟩ 0, ?_, runInternal_log _ _⟩
    rw [htail]; rfl
  | cons w ws ih =>
    obtain ⟨s', hsent, hbusy', hreq', htail', ha', rfl, hctrl', hlog'⟩ :=
      run_sent_emit ⟨hbusy, hreq, ha⟩ htail (ws.length + 1)
    obtain ⟨t, hrun, hctrl, hlog⟩ := ih hbusy' hreq' htail' ha'
    refine ⟨t, hsent.trans hrun, hctrl.trans hctrl', ?_⟩
    rw [hlog, hlog', List.append_assoc]
    rfl

/-! ## The last control word on the record (R25) -/

/-- A transmit that brings the device no control word leaves the last one sent as it was. -/
theorem lastCtrlSent_of_log {s t : State} {e : Sent} (h : t.log = s.log ++ [e]) (he : e.isCtrl = false) :
    t.lastCtrlSent = s.lastCtrlSent := by
  simp [State.lastCtrlSent, h, he]

/-- The cache is fresh when its control word is the last one on the record that reached the device. -/
theorem stale_of_log {t : State} {log after : List Sent} (h : t.log = log ++ ⟨ctrlWord t.ctrl, .ok⟩ :: after)
    (hafter : ∀ e ∈ after, e.isCtrl = false) : t.stale = false := by
  have hfilter : after.filter Sent.isCtrl = [] := List.filter_eq_nil_iff.2 fun e he => by simp [hafter e he]
  simp [State.stale, State.lastCtrlSent, h, hfilter]

/-- With no transmit, a fresh cache becomes stale exactly if its control word changes. -/
theorem stale_of_fresh {s t : State} (hlog : t.log = s.log) (h : s.stale = false) :
    t.stale = (ctrlWord t.ctrl != ctrlWord s.ctrl) := by
  have hlast : s.lastCtrlSent = some (ctrlWord s.ctrl) := by simpa [State.stale] using h
  have hlast' : t.lastCtrlSent = some (ctrlWord s.ctrl) := by rw [← hlast, State.lastCtrlSent, hlog]; rfl
  rw [State.stale, hlast', Bool.eq_iff_iff, bne_iff_ne, bne_iff_ne, ne_eq, Option.some_inj, ne_comm]

/-! ## Commands of one word -/

/-- A command of one word starts by presenting it, with the cache it leaves and nothing behind the word. -/
theorem start_oneWord {s : State} {cmd : Command} {i : Instr} {x w : Word} (h : oneWord s cmd i = some (x, w))
    (rest : List Command) :
    let t := (s.take rest).start (commandProgram s.params i cmd)
    t.busy = true ∧ t.txReq = true ∧ t.txWord = w ∧ t.ctrl = x ∧ t.uprog.tail = [] := by
  cases i with
  | setwave v => cases v <;> cases h <;> exact ⟨rfl, rfl, rfl, rfl, rfl⟩
  | flush | setphase | selfreq | selphase | rstassert | rstrelease => cases h; exact ⟨rfl, rfl, rfl, rfl, rfl⟩
  | init | setbit | setfreq | apply => cases h
  | ctrlWrite | freq0Write | freq1Write | phase0Write | phase1Write => cases h

/-- A command of one word is not refused by an initialised block. -/
theorem commandCheck_oneWord {s : State} {cmd : Command} {i : Instr} {x w : Word} (hf : s.fsm ≠ .uninit)
    (h : oneWord s cmd i = some (x, w)) : i.isCommand = true ∧ commandCheck s i cmd = none := by
  cases i with
  | flush | setphase | selfreq | selphase | setwave | rstassert | rstrelease => exact ⟨rfl, checkInitialised_none hf⟩
  | init | setbit | setfreq | apply => cases h
  | ctrlWrite | freq0Write | freq1Write | phase0Write | phase1Write => cases h

/-- A command of one word whose word completes: the cache it leaves, and its word on the record (R111, R161 to R166). -/
theorem run_oneWord {s : State} {cmd : Command} {rest : List Command} {i : Instr} {x w : Word} {as : List TxResult}
    (hready : s.Ready cmd rest) (hhdr : cmd.hdr = encode i) (h : oneWord s cmd i = some (x, w))
    (ha : s.answers = .ok :: as) : ∃ t, run 2 s = .next t ∧ t.ctrl = x ∧ t.log = s.log ++ [⟨w, .ok⟩] := by
  obtain ⟨hi, hcheck⟩ := commandCheck_oneWord hready.initialised h
  obtain ⟨hbusy, hreq, rfl, rfl, htail⟩ := start_oneWord h rest
  obtain ⟨t, hrun, hctrl, hlog⟩ := run_emits (ws := []) hbusy hreq htail ((start_answers ..).trans ha)
  rw [start_log] at hlog
  exact ⟨t, (run_accepted hready.idle hready.presented (hhdr ▸ decodeHeader_encode hi) hi hcheck 1).trans hrun, hctrl, hlog⟩

/-- SETPHASE sends no control word and leaves the cache as it was, so it leaves staleness as it was. -/
theorem stale_setphase {s t : State} {cmd : Command} {r : Reg} {w : Word}
    (h : oneWord s cmd (.setphase r) = some (t.ctrl, w)) (hlog : t.log = s.log ++ [⟨w, .ok⟩]) : t.stale = s.stale := by
  obtain ⟨hctrl, rfl⟩ : s.ctrl = t.ctrl ∧ phaseWordTagged r (phaseWord cmd.P) = w := by simpa [oneWord] using h
  rw [State.stale, State.stale, lastCtrlSent_of_log hlog (isCtrl_phase ..), hctrl]

/-- The word of every other command of one word is the control word of the cache it leaves. -/
theorem oneWord_ctrlWord {s : State} {cmd : Command} {i : Instr} {x w : Word} (hi : ∀ r, i ≠ .setphase r)
    (h : oneWord s cmd i = some (x, w)) : w = ctrlWord x := by
  cases i with
  | setphase r => exact absurd rfl (hi r)
  | flush | selfreq | selphase | setwave | rstassert | rstrelease => cases h; rfl
  | init | setbit | setfreq | apply => cases h
  | ctrlWrite | freq0Write | freq1Write | phase0Write | phase1Write => cases h

/-! ## SETFREQ -/

/-- R160: SETFREQ with its three words completed: B28 is set, and the cache's control word went before the two halves. -/
theorem run_setfreq {s : State} {cmd : Command} {rest : List Command} {r : Reg} {as : List TxResult}
    (hready : s.Ready cmd rest) (hhdr : cmd.hdr = encode (.setfreq r)) (hadm : s.admits cmd.F)
    (ha : s.answers = [.ok, .ok, .ok] ++ as) :
    ∃ t, run 4 s = .next t ∧ t.ctrl = setFlag s.ctrl .b28 true ∧
      t.log = s.log ++ allOk (setfreqWords s.params.refclk s.ctrl r cmd.F) := by
  have hstart := run_accepted hready.idle hready.presented (i := .setfreq r) (hhdr ▸ decodeHeader_encode rfl) rfl
    (checkFreq_admitted hready.initialised hadm) 3
  obtain ⟨t, hrun, hctrl, hlog⟩ := run_emits
    (s := (s.take rest).start (commandProgram s.params (.setfreq r) cmd))
    (ws := [freqWordTagged r (freqLo s.params.refclk cmd.F), freqWordTagged r (freqHi s.params.refclk cmd.F)])
    rfl rfl rfl ((start_answers ..).trans ha)
  exact ⟨t, hstart.trans hrun, hctrl, hlog⟩

/-- Settles O43: what each command leaves as the last control word sent, against the cache it leaves. -/
theorem stalenessOfTheCache : Obligations.StalenessOfTheCache := by
  refine ⟨?_, ?_, ?_, ?_⟩
  · intro s c rest i x w as hready hhdr hone ha
    obtain ⟨t, hrun, rfl, hlog⟩ := run_oneWord hready hhdr hone ha
    refine ⟨t, hrun, ?_⟩
    split
    · exact stale_setphase hone hlog
    · next hi =>
      rw [oneWord_ctrlWord hi hone] at hlog
      exact stale_of_log hlog nofun
  · intro s c rest r as hready hhdr hadm ha
    obtain ⟨t, hrun, hctrl, hlog⟩ := run_setfreq hready hhdr hadm ha
    rw [setfreqWords, ← hctrl] at hlog
    exact ⟨t, hrun, stale_of_log hlog (by simp)⟩
  · intro s c rest f v hready hfresh
    exact ⟨_, (exec_command rfl s).trans (accept_started hready.idle hready.presented
      (checkInitialised_none hready.initialised)), stale_of_fresh (start_log ..) hfresh⟩
  · intro s rest r he
    exact ⟨(s.take rest).refuse r, by rw [step, he], rfl⟩

end Sys2Proof.Machine

/-! SUPPORT. Words at the device (file 20): the same word latched twice in a row (R67), and wire words read by their bits
(R61). -/

namespace Sys2Proof.Machine

/-- R43: latching a control word leaves nothing of the view that latching it again would change. -/
@[simp] theorem latchCtrl_twice (rx : Rx) (w : Word) : (rx.latchCtrl w).latchCtrl w = rx.latchCtrl w := rfl

@[simp] theorem setPhase_twice (rx : Rx) (r : Reg) (v v' : Known PhaseWord) :
    (rx.setPhase r v).setPhase r v' = rx.setPhase r v' := by cases r <;> rfl

/-- R45: a phase register is written whole, so the second word writes what the first one did. -/
@[simp] theorem latchPhase_twice (rx : Rx) (r : Reg) (d : PhaseWord) :
    (rx.latchPhase r d).latchPhase r d = rx.latchPhase r d := setPhase_twice rx r _ _

/-- R44: with no half pending in load mode, two halves to one register are the low and the high one. -/
theorem latchFreq_pair {rx : Rx} (hl : rx.loadMode = true) (hp : rx.pend = .none) (r : Reg) (lo hi : Half) :
    ((rx.latchFreq r lo).latchFreq r hi).freq r = .known (hi ++ lo) := by
  rw [latchFreq_first hl hp, latchFreq_second (rx := { rx with pend := .lo r lo }) hl rfl]
  cases r <;> rfl

/-- R43: a control word with B28 = 1 leaves the device in load mode with no half pending. -/
theorem latchFreq_pair_after_latchCtrl (rx : Rx) {w : Word} (hb28 : getFlag w .b28 = true) (r : Reg) (lo hi : Half) :
    (((rx.latchCtrl w).latchFreq r lo).latchFreq r hi).freq r = .known (hi ++ lo) :=
  latchFreq_pair ((latchCtrl_loadMode rx w).trans hb28) rfl r lo hi

/-- Settles O32: a control word and a phase word are latched whole, and the second half of a pair is the high one, also
when it is the first half again. -/
theorem repeatedWordsAtTheDevice : Obligations.RepeatedWordsAtTheDevice :=
  fun rx =>
    ⟨fun c => latchCtrl_twice rx (packCtrl c), fun _ d => latchPhase_twice rx .r0 d, fun _ d => latchPhase_twice rx .r1 d,
      fun _ d hb28 => ⟨latchFreq_pair_after_latchCtrl rx hb28 .r0 d d, latchFreq_pair_after_latchCtrl rx hb28 .r1 d d⟩⟩

/-- Settles O2: the words are fixed, so `decodeWire` is evaluated on each. -/
theorem wireWordExamplesDecode : Obligations.WireWordExamplesDecode := by
  unfold Obligations.WireWordExamplesDecode
  decide

end Sys2Proof.Machine

/-! SUPPORT. Encoding (file 30): the round trip of both encodings, the order of the header's checks (R85), the words in
flight (R88, R90, R92) and the real numbers of the operand slots (R81). -/

namespace Sys2Proof.Machine

/-- R91: a wire word's encoding is read back at the device. -/
theorem decodeWire_encode {i : Instr} (hi : i.isCommand = false) : decodeWire (encode i) = i := by
  cases i with
  | ctrlWrite c => exact (Laws.RoundTrip.ctrlWrite c).2 rfl
  | freq0Write d => exact (Laws.RoundTrip.freq0Write d).2 rfl
  | freq1Write d => exact (Laws.RoundTrip.freq1Write d).2 rfl
  | phase0Write z d => exact (Laws.RoundTrip.phase0Write z d).2 rfl
  | phase1Write z d => exact (Laws.RoundTrip.phase1Write z d).2 rfl
  | init | setbit | flush | setfreq | setphase | selfreq | selphase | setwave | rstassert | rstrelease | apply => cases hi

/-- Settles O3: each encoding is read back by its own decoder, and each decoder's answer encodes to the word it read. -/
theorem decodeAndEncodeAgree : Obligations.DecodeAndEncodeAgree :=
  ⟨fun _ => decodeHeader_encode, fun _ => decodeWire_encode,
    fun _ _ h => ⟨decodeHeader_isCommand h, encode_of_decodeHeader h⟩,
    fun w => ⟨decodeWire_isCommand w, encode_decodeWire w⟩⟩

/-! ## The checks of a header (R85) -/

/-- R82: the opcodes 0x1 to 0xB are a command's, every other number is reserved. -/
theorem opcodeOf_eq_none_iff (n : Nat) : opcodeOf n = none ↔ ¬(1 ≤ n ∧ n ≤ 0xB) := by
  constructor
  · rintro h ⟨hlow, hhigh⟩
    interval_cases n <;> cases h
  · intro h
    unfold opcodeOf
    split <;> simp at h ⊢

/-- R82: 0x2 is the opcode of SETBIT and of no other command. -/
theorem opcodeOf_setbit_iff {n : Nat} {op : Opcode} (h : opcodeOf n = some op) : op = .setbit ↔ n = 0x2 := by
  unfold opcodeOf at h
  split at h <;> cases h <;> simp

/-- R85: the used mask by the opcode's number. -/
theorem usedMask_of_opcodeOf {n : Nat} {op : Opcode} (h : opcodeOf n = some op) :
    usedMask op =
      if n = 0x2 then 0x1F0
      else if n = 0x4 ∨ n = 0x5 ∨ n = 0x6 ∨ n = 0x7 then 0x800
      else if n = 0x8 then 0x600
      else if n = 0xB then 0xE00
      else 0x000 := by
  unfold opcodeOf at h
  split at h <;> cases h <;> rfl

/-- R83: the flag codes above 8 are reserved. -/
theorem fieldOfCode_eq_none_iff (n : Nat) : fieldOfCode n = none ↔ ¬n ≤ 8 := by
  constructor
  · intro h hcode
    interval_cases n <;> cases h
  · intro h
    unfold fieldOfCode
    split <;> simp at h ⊢

/-- R85, the first check. -/
theorem decodeHeader_reservedOpcode {hdr : Word} (h : opcodeOf (hdrOp hdr).toNat = none) :
    decodeHeader hdr = .refused .reservedOpcode := by
  simp only [decodeHeader, h]

/-- R85, the second check. -/
theorem decodeHeader_nonzeroUnusedField {hdr : Word} {op : Opcode} (hop : opcodeOf (hdrOp hdr).toNat = some op)
    (h : hdrLow hdr &&& ~~~usedMask op ≠ 0) : decodeHeader hdr = .refused .nonzeroUnusedField := by
  simp only [decodeHeader, hop, if_neg h]

/-- R85: a header that passes the first two checks is left to the third. -/
theorem decodeHeader_operands {hdr : Word} {op : Opcode} (hop : opcodeOf (hdrOp hdr).toNat = some op)
    (h : hdrLow hdr &&& ~~~usedMask op = 0) : decodeHeader hdr = decodeOperands op hdr := by
  simp only [decodeHeader, hop, if_pos h]

/-- R85: the last check refuses SETBIT with a reserved flag code. -/
theorem decodeOperands_reservedFlag {hdr : Word} (h : ¬(hdrFlag hdr).toNat ≤ 8) :
    decodeOperands .setbit hdr = .refused .reservedFlag := by
  simp only [decodeOperands, (fieldOfCode_eq_none_iff _).2 h]

/-- R85: the last check refuses nothing else. -/
theorem decodeOperands_cmd {hdr : Word} {op : Opcode} (h : op = .setbit → (hdrFlag hdr).toNat ≤ 8) :
    ∃ i, decodeOperands op hdr = .cmd i := by
  cases op with
  | setbit =>
    obtain ⟨f, hf⟩ := Option.ne_none_iff_exists'.1 fun hnone => (fieldOfCode_eq_none_iff _).1 hnone (h rfl)
    exact ⟨.setbit f (hdrValue hdr), by simp only [decodeOperands, hf]⟩
  | init | flush | setfreq | setphase | selfreq | selphase | setwave | rstassert | rstrelease | apply => exact ⟨_, rfl⟩

/-- Settles O4: one check after the other, each deciding the header if the ones before it passed. -/
theorem headerChecksRunInOrder : Obligations.HeaderChecksRunInOrder := by
  intro hdr op used unusedZero flagOk
  cases hop : opcodeOf op with
  | none =>
    have hreserved := (opcodeOf_eq_none_iff op).1 hop
    exact ⟨fun _ => decodeHeader_reservedOpcode hop, fun h => absurd h hreserved, fun h => absurd h hreserved,
      fun h => absurd h hreserved⟩
  | some o =>
    have hmask : hdrLow hdr &&& ~~~usedMask o = 0 ↔ unusedZero := by rw [usedMask_of_opcodeOf hop]; rfl
    have hset : o = .setbit ↔ op = 0x2 := opcodeOf_setbit_iff hop
    refine ⟨fun h => ?_, fun _ hunused => ?_, fun _ hunused hflag => ?_, fun _ hunused hflag => ?_⟩
    · rw [(opcodeOf_eq_none_iff op).2 h] at hop
      cases hop
    · exact decodeHeader_nonzeroUnusedField hop fun hzero => hunused (hmask.1 hzero)
    · obtain ⟨hsetbit, hcode⟩ := Classical.not_imp.1 hflag
      obtain rfl := hset.2 hsetbit
      exact (decodeHeader_operands hop (hmask.2 hunused)).trans (decodeOperands_reservedFlag hcode)
    · obtain ⟨i, hi⟩ := decodeOperands_cmd (hdr := hdr) fun ho => hflag (hset.1 ho)
      have hdecode := (decodeHeader_operands hop (hmask.2 hunused)).trans hi
      exact ⟨i, hdecode, decodeHeader_isCommand hdecode, encode_of_decodeHeader hdecode⟩

/-- Settles O1: the lines are fixed, so the assembler and `decodeHeader` are evaluated on each. -/
theorem assemblyExamplesEncode : Obligations.AssemblyExamplesEncode := by
  unfold Obligations.AssemblyExamplesEncode
  decide +kernel

/-- R86: the next event of a block that is not busy is the refusal of a header that does not decode. -/
theorem event_of_refused {s : State} {c : Command} {rest : List Command} {r : RefuseReason} (hb : s.busy = false)
    (hc : s.cmds = c :: rest) (hd : decodeHeader c.hdr = .refused r) : s.event = .refuse r rest := by
  simp [State.event, hb, hc, hd]

/-- Settles O11: the step takes the command and writes `resp`, by `State.take` and `State.refuse`. -/
theorem reservedHeadersAreRefused : Obligations.ReservedHeadersAreRefused := by
  intro s c rest r hb hc hd
  rw [step, event_of_refused hb hc hd]
  rfl

/-! ## Words in flight (R88, R90, R92) -/

/-- R192: a program waits at a control word made from the cache, or at an emitted word. -/
theorem headWord_cases {c w : Word} {ops : List MicroOp} (h : headWord c ops = some w) :
    ∃ rest, (ops = .emitCtrl :: rest ∧ w = ctrlWord c) ∨ ops = .emit w :: rest := by
  unfold headWord at h
  split at h <;> cases h
  · exact ⟨_, .inl ⟨rfl, rfl⟩⟩
  · exact ⟨_, .inr rfl⟩

/-- R190: an emitted word is well-formed and no control word. -/
theorem waitingOp_emit {w : Word} (h : waitingOp (.emit w) = true) :
    (decodeWire w).wf = true ∧ w.extractLsb' 14 2 ≠ 0b00#2 := by
  simpa [waitingOp] using h

/-- Settles O59: the word in flight is the emit at the head of a waiting program, so it is the control word of the cache
(whose unnamed bits are 0), or a word that `waitingOp` admits. -/
theorem wordsInFlightAreWellFormed : Obligations.WordsInFlightAreWellFormed := by
  intro s hinv hb
  have hwaiting := hinv.waiting
  obtain ⟨rest, ⟨-, hword⟩ | hprog⟩ := headWord_cases (hinv.inFlight hb)
  · exact ⟨by rw [hword, decodeWire_ctrlWord]; rfl, fun _ => hword.trans (ctrlWord_of_unnamed hinv.hardwired)⟩
  · rw [hprog] at hwaiting
    obtain ⟨hwf, htag⟩ := waitingOp_emit (waitingProg_cons hwaiting).1
    exact ⟨hwf, fun h => absurd h htag⟩

/-- What the order of the words (R253) says of the device: before a first half it is in load mode with no half pending,
and before a second half the low half for the same register is pending. -/
def WordOrder.HeldBy (rx : Rx) : WordOrder → Prop
  | .free => True
  | .armed => rx.loadMode = true ∧ rx.pend = .none
  | .low r => rx.loadMode = true ∧ ∃ d, rx.pend = .lo r d

/-- R44: a frequency half that completes where it may stand leaves the device as the order says. -/
theorem WordOrder.HeldBy.latchFreq {rx : Rx} {q q' : WordOrder} {r : Reg} (h : q.HeldBy rx) (hq : q.freq r = some q')
    (d : Half) : q'.HeldBy (rx.latchFreq r d) := by
  cases q with
  | free => cases hq
  | armed =>
    obtain ⟨hload, hpend⟩ := h
    obtain rfl : .low r = q' := Option.some.inj hq
    rw [latchFreq_first hload hpend]
    exact ⟨hload, d, rfl⟩
  | low r' =>
    obtain ⟨-, rfl⟩ : r' = r ∧ .free = q' := by simpa [WordOrder.freq] using hq
    trivial

/-- R43: a control word with B28 = 1 leaves the device ready for a first half. -/
theorem heldBy_latchCtrl (rx : Rx) (w : Word) :
    WordOrder.HeldBy (rx.latchCtrl w) (if getFlag w .b28 then .armed else .free) := by
  split
  · next hb28 => exact ⟨hb28, rfl⟩
  · trivial

/-- R226: a failed word ends its command, so nothing in particular is awaited after it. -/
theorem word_err_eq_free {q q' : WordOrder} {i : Instr} {e : TransportError} (h : q.word i (.err e) = some q') :
    q' = .free := by
  cases i with
  | ctrlWrite | phase0Write | phase1Write =>
    cases q with
    | low r => cases h
    | free | armed => cases h; rfl
  | freq0Write | freq1Write =>
    obtain ⟨-, -, rfl⟩ := Option.map_eq_some_iff.1 h
    rfl
  | init | setbit | flush | setfreq | setphase | selfreq | selphase | setwave | rstassert | rstrelease | apply => cases h

/-- A word that completes where it may stand leaves the device as the order says. -/
theorem WordOrder.HeldBy.latch {rx : Rx} {q q' : WordOrder} {i : Instr} (h : q.HeldBy rx) (hq : q.word i .ok = some q') :
    q'.HeldBy (rx.latch i) := by
  cases i with
  | ctrlWrite c =>
    cases q with
    | low r => cases hq
    | free | armed =>
      obtain rfl := Option.some.inj hq
      simpa [Rx.latch] using heldBy_latchCtrl rx (packCtrl c)
  | freq0Write d | freq1Write d => exact h.latchFreq hq d
  | phase0Write | phase1Write =>
    cases q with
    | low r => cases hq
    | free | armed => cases hq; trivial
  | init | setbit | flush | setfreq | setphase | selfreq | selphase | setwave | rstassert | rstrelease | apply => cases hq

/-- One transmit, completed or failed, keeps the device as the order of the words says. -/
theorem WordOrder.HeldBy.after {rx : Rx} {q q' : WordOrder} {e : Sent} (h : q.HeldBy rx)
    (hq : q.word (decodeWire e.word) e.result = some q') : q'.HeldBy (rx.after e) := by
  obtain ⟨w, res⟩ := e
  cases res with
  | ok => exact h.latch hq
  | err e => rw [word_err_eq_free hq]; trivial

/-- R253: words in order leave the device as the order says. -/
theorem WordOrder.HeldBy.foldl {rx : Rx} {q q' : WordOrder} {log : List Sent} (h : q.HeldBy rx)
    (hq : wordOrder (some q) log = some q') : q'.HeldBy (log.foldl Rx.after rx) := by
  induction log generalizing rx q with
  | nil => cases hq; exact h
  | cons e log ih =>
    rw [wordOrder] at hq
    cases hword : q.word (decodeWire e.word) e.result with
    | none => rw [hword] at hq; cases log <;> cases hq
    | some q1 => rw [hword] at hq; exact ih (h.after hword) hq

/-- A frequency half stands in order only where the device is in load mode, with no half pending or the low half for the
same register. -/
theorem WordOrder.HeldBy.freq {rx : Rx} {q q' : WordOrder} {r : Reg} (h : q.HeldBy rx) (hq : q.freq r = some q') :
    rx.loadMode = true ∧ (rx.pend = .none ∨ ∃ d, rx.pend = .lo r d) := by
  cases q with
  | free => cases hq
  | armed => exact ⟨h.1, .inl h.2⟩
  | low r' =>
    obtain ⟨rfl, -⟩ : r' = r ∧ .free = q' := by simpa [WordOrder.freq] using hq
    exact ⟨h.1, .inr h.2⟩

/-- Settles O58: the words on the record stand in order, so the device is as `WordOrder.HeldBy` says, and the frequency
word in flight may stand after them. -/
theorem frequencyWordsTakenInTwoHalfMode : Obligations.FrequencyWordsTakenInTwoHalfMode := by
  intro s res rest d hinv hans
  obtain ⟨q, q', hq, hword, -⟩ := hinv.word hans.busy
  have hheld : q.HeldBy s.rx := hinv.replayed ▸ WordOrder.HeldBy.foldl (q := .free) trivial hq
  constructor <;> intro hdecode <;> rw [hdecode] at hword <;> exact hheld.freq hword

/-! ## The operand slots (R81) -/

/-- R133 and R130: whether a frequency lies in `[0, REFCLK_HZ)` shows in its quotient. -/
theorem inRange_iff_realQuotient {R : ℝ} (hR : 0 < R) (F : ℝ) :
    (0 ≤ F ∧ F < R) ↔ 0 ≤ realQuotient R F ∧ realQuotient R F < 2 ^ 28 := by
  have hlow : 0 ≤ F * 2 ^ 28 / R ↔ 0 ≤ F := by
    rw [le_div_iff₀ hR, zero_mul, mul_nonneg_iff_of_pos_right (by norm_num)]
  have hhigh : F * 2 ^ 28 / R < 2 ^ 28 ↔ F < R := by
    rw [div_lt_iff₀ hR, mul_comm, mul_lt_mul_iff_right₀ (by norm_num)]
  rw [realQuotient, Int.floor_nonneg, hlow, Int.floor_lt, ← hhigh]
  norm_num

/-- R130: every quotient is that of a rational frequency, whatever the clock. -/
theorem exists_rat_realQuotient {c : ℝ} (hc : 0 < c) (n : Int) : ∃ q : Rat, realQuotient c q = n := by
  obtain ⟨q, hlow, hhigh⟩ := exists_rat_btwn (show n * c / 2 ^ 28 < (n + 1) * c / 2 ^ 28 by gcongr; linarith)
  rw [div_lt_iff₀ (by norm_num)] at hlow
  rw [lt_div_iff₀ (by norm_num)] at hhigh
  refine ⟨q, Int.floor_eq_iff.2 ⟨?_, ?_⟩⟩
  · exact (le_div_iff₀ hc).2 hlow.le
  · exact (div_lt_iff₀ hc).2 hhigh

/-- R137: every rounded phase is that of a multiple of π. -/
theorem phaseIndex_ofPi (m : Int) : phaseIndex (.ofPi (m / 2048)) = m := by
  have hx : (Angle.ofPi (m / 2048)).value * 2048 / Real.pi + 1 / 2 = m + 1 / 2 := by
    have := Real.pi_ne_zero
    rw [Angle.ofPi, Angle.value_lit]
    push_cast
    field_simp
    ring
  rw [phaseIndex_eq_floor, hx, Int.floor_intCast_add]
  norm_num

/-- Settles O50: the range check shows in the quotient, so a rational frequency with the same quotient is one with the
same answer. -/
theorem rationalSlotsLoseNoBehaviour : Obligations.RationalSlotsLoseNoBehaviour := by
  refine ⟨RealTable.exists_of_values, fun refclk F => ⟨freqQuotient_eq_floor refclk F, inRange_iff refclk F⟩, ?_, ?_⟩
  · intro refclk R F hclk hR
    obtain ⟨q, hq⟩ := exists_rat_realQuotient hclk (realQuotient R F)
    refine ⟨q, (freqQuotient_eq_floor _ _).trans hq, ?_⟩
    rw [inRange_iff, inRange_iff_realQuotient hclk, inRange_iff_realQuotient hR, Hertz.value_rat, hq]
  · intro P
    exact ⟨.ofPi (⌊realX P + 1 / 2⌋ / 2048), by rw [phaseWord_toNat, phaseIndex_ofPi, realPhase]⟩

end Sys2Proof.Machine

/-! SUPPORT. The Register Model (file 40): SETBIT and FLUSH in their accept step, and every command of one word run to
its end. -/

namespace Sys2Proof.Machine

/-- R191: a command presented to an initialised, idle block and not refused starts its program. -/
theorem exec_ready {s : State} {c : Command} {rest : List Command} {i : Instr} (h : s.Ready c rest)
    (hi : i.isCommand = true) (hcheck : commandCheck s i c = none) :
    exec i s = .next ((s.take rest).start (commandProgram s.params i c)) :=
  (exec_command hi s).trans (accept_started h.idle h.presented hcheck)

/-- Settles O14: SETBIT's program is one SET and an end, so starting it completes it. -/
theorem setbitWritesOneFlag : Obligations.SetbitWritesOneFlag :=
  fun _ _ _ _ _ h => exec_ready h rfl (checkInitialised_none h.initialised)

/-- Settles O15: FLUSH's program is one EMIT_CTRL, so starting it presents the cache. -/
theorem flushPresentsTheCache : Obligations.FlushPresentsTheCache :=
  fun _ _ _ h => exec_ready h rfl (checkInitialised_none h.initialised)

/-- The state in which a command of one word waits for the transport: its cache written, its word in flight and no
micro-operation behind the emit `op`. -/
def State.oneWordInFlight (s : State) (rest : List Command) (x w : Word) (op : MicroOp) : State :=
  { s with cmds := rest, ctrl := x, busy := true, uprog := [op], wcount := 0, txReq := true, txWord := w }

/-- R111, R161 to R166: what the accept step of a command of one word leaves, field by field. -/
theorem start_oneWord_eq {s : State} {cmd : Command} {i : Instr} {x w : Word} (h : oneWord s cmd i = some (x, w))
    (rest : List Command) :
    ∃ op, (s.take rest).start (commandProgram s.params i cmd) = s.oneWordInFlight rest x w op := by
  cases i with
  | setwave v => cases v <;> cases h <;> exact ⟨.emitCtrl, rfl⟩
  | setphase r => cases h; exact ⟨phaseEmit r cmd.P, rfl⟩
  | flush | selfreq | selphase | rstassert | rstrelease => cases h; exact ⟨.emitCtrl, rfl⟩
  | init | setbit | setfreq | apply => cases h
  | ctrlWrite | freq0Write | freq1Write | phase0Write | phase1Write => cases h

/-- R191: the accept step of a command of one word puts its word in flight. -/
theorem run_oneWord_accepted {s : State} {cmd : Command} {rest : List Command} {i : Instr} {x w : Word}
    (hready : s.Ready cmd rest) (hhdr : cmd.hdr = encode i) (h : oneWord s cmd i = some (x, w)) (k : Nat) :
    ∃ op, run (k + 1) s = run k (s.oneWordInFlight rest x w op) := by
  obtain ⟨hi, hcheck⟩ := commandCheck_oneWord hready.initialised h
  obtain ⟨op, hstart⟩ := start_oneWord_eq h rest
  exact ⟨op, hstart ▸ run_accepted hready.idle hready.presented (hhdr ▸ decodeHeader_encode hi) hi hcheck k⟩

/-- Settles O33: the accept step puts the one word in flight, and its `Ok` finds the program at its end. -/
theorem oneWordCommandsComplete : Obligations.OneWordCommandsComplete := by
  intro s c rest i x w as hready hhdr hone ha
  obtain ⟨op, haccept⟩ := run_oneWord_accepted hready hhdr hone 1
  have hanswered : (s.oneWordInFlight rest x w op).Answered .ok as := ⟨rfl, rfl, ha⟩
  exact haccept.trans (run_sent hanswered 0)

end Sys2Proof.Machine

/-! SUPPORT. The conversions of file 41: the frequency and the phase word as formulas over the reals, their laws, and
the refusal of a frequency outside the range. -/

namespace Sys2Proof.Machine

/-! ## Frequency (R130 to R134) -/

/-- R133 under `wrap`: FreqWord28 is the quotient modulo 2^28, for every operand. -/
theorem freqWord28_eq_quotient (refclk F : Hertz) :
    ((freqWord28 refclk F).toNat : Int) = freqQuotient refclk F % 2 ^ 28 := by
  have hw := freqW32_toNat refclk F
  have h28 := freqWord28_toNat refclk F
  omega

/-- Settles O45: the laws of `freqLo`, `freqHi` and `freqWord28`, and the quotient as a floor. -/
theorem frequencyWordFormula : Obligations.FrequencyWordFormula := by
  intro refclk F _
  rw [← freqQuotient_eq_floor, ← freqW32_toNat, freqLo_toNat, freqHi_toNat]
  exact ⟨by norm_cast, by norm_cast, freqWord28_eq_quotient refclk F⟩

/-- R134 (a): a frequency in `[0, REFCLK_HZ)` has a quotient of 28 bits. -/
theorem freqQuotient_bounds {refclk F : Hertz} (hclk : 0 < refclk.value) (h0 : 0 ≤ F.value)
    (hF : F.value < refclk.value) : 0 ≤ freqQuotient refclk F ∧ freqQuotient refclk F < 2 ^ 28 := by
  rw [freqQuotient_eq_floor]
  exact (inRange_iff_realQuotient hclk F.value).1 ⟨h0, hF⟩

/-- R134 (a): on `[0, REFCLK_HZ)` FreqWord28 is the quotient. -/
theorem freqWord28_of_inRange {refclk F : Hertz} (hclk : 0 < refclk.value) (h0 : 0 ≤ F.value)
    (hF : F.value < refclk.value) : ((freqWord28 refclk F).toNat : Int) = freqQuotient refclk F := by
  obtain ⟨hlow, hhigh⟩ := freqQuotient_bounds hclk h0 hF
  rw [freqWord28_eq_quotient, Int.emod_eq_of_lt hlow hhigh]

/-- R134 (b): a frequency lies in the quantisation step that its quotient names. -/
theorem freqQuotient_step {refclk : Hertz} (hclk : 0 < refclk.value) (F : Hertz) :
    (freqQuotient refclk F : ℝ) * refclk.value / 2 ^ 28 ≤ F.value ∧
    F.value < (freqQuotient refclk F : ℝ) * refclk.value / 2 ^ 28 + refclk.value / 2 ^ 28 := by
  have hlow := Int.floor_le (F.value * 2 ^ 28 / refclk.value)
  have hhigh := Int.lt_floor_add_one (F.value * 2 ^ 28 / refclk.value)
  rw [← freqQuotient_eq_floor] at hlow hhigh
  rw [le_div_iff₀ hclk] at hlow
  rw [div_lt_iff₀ hclk] at hhigh
  constructor <;> linarith

/-- R134 (c): the quotient is monotone in the frequency. -/
theorem freqQuotient_mono {refclk F1 F2 : Hertz} (hclk : 0 < refclk.value) (h : F1.value ≤ F2.value) :
    freqQuotient refclk F1 ≤ freqQuotient refclk F2 := by
  rw [freqQuotient_eq_floor, freqQuotient_eq_floor]
  gcongr

/-- R134 (d): the quotient of a frequency on the grid is its place there. -/
theorem freqQuotient_grid {refclk F : Hertz} (hclk : 0 < refclk.value) {k : Nat}
    (h : F.value = k * refclk.value / 2 ^ 28) : freqQuotient refclk F = k := by
  have hx : F.value * 2 ^ 28 / refclk.value = k := by
    rw [h]
    field_simp
  rw [freqQuotient_eq_floor, hx, Int.floor_natCast]

/-- Settles O46: on the range the words are the quotient, so each law is one of the quotient. -/
theorem frequencyLaws : Obligations.FrequencyLaws := by
  intro refclk hclk
  refine ⟨fun F h0 hF => ?_, fun F1 F2 h0 h12 hF2 => ?_, fun k F hk hF => ?_⟩
  · have hword := freqWord28_of_inRange hclk h0 hF
    obtain ⟨hlow, hhigh⟩ := freqQuotient_bounds hclk h0 hF
    have hw32 : ((freqW32 refclk F).toNat : Int) = freqQuotient refclk F := by
      rw [freqW32_toNat, Int.emod_eq_of_lt hlow (hhigh.trans (by norm_num))]
    have hstep := freqQuotient_step hclk F
    rw [← hword, Int.cast_natCast] at hstep
    exact ⟨hlow, hhigh, hw32, hword, hstep⟩
  · have hmono := freqQuotient_mono hclk h12
    rw [← freqWord28_of_inRange hclk h0 (h12.trans_lt hF2), ← freqWord28_of_inRange hclk (h0.trans h12) hF2] at hmono
    exact_mod_cast hmono
  · have hword := freqWord28_eq_quotient refclk F
    rw [freqQuotient_grid hclk hF] at hword
    omega

/-! ## Phase (R135 to R137) -/

/-- R135: the computed word is the real formula's. -/
theorem phaseWord_eq_realPhase (a : Angle) : ((phaseWord a).toNat : Int) = realPhase a.value := by
  have hx : realX a.value = a.value * 2048 / Real.pi := by
    rw [realX]
    ring
  rw [phaseWord_toNat, phaseIndex_eq_floor, realPhase, hx]

/-- Settles O47: `phaseWord_eq_realPhase`, with the real formula written out. -/
theorem phaseWordIsExact : Obligations.PhaseWordIsExact := phaseWord_eq_realPhase

/-- R136 (b): a turn adds 4096 steps. -/
theorem realX_add_turns (P : ℝ) (k : Int) : realX (P + 2 * Real.pi * k) = realX P + (4096 * k : Int) := by
  have := Real.pi_ne_zero
  rw [realX, realX]
  push_cast
  field_simp

/-- R136 (b): the phase word is the same after whole turns. -/
theorem realPhase_add_turns (P : ℝ) (k : Int) : realPhase (P + 2 * Real.pi * k) = realPhase P := by
  rw [realPhase, realPhase, realX_add_turns, add_right_comm, Int.floor_add_intCast, Int.add_mul_emod_self_left]

/-- R137: a multiple of π needs no π. -/
theorem realX_mul_pi (q : ℝ) : realX (q * Real.pi) = 2048 * q := by
  have := Real.pi_ne_zero
  rw [realX]
  field_simp
  ring

/-- R136 (c): a multiple of π / 2048 is a whole number of steps. -/
theorem realPhase_grid (k : Int) : realPhase (k * Real.pi / 2048) = k % 4096 := by
  have hx : realX (k * Real.pi / 2048) = k := by
    rw [mul_div_right_comm, realX_mul_pi]
    ring
  rw [realPhase, hx, Int.floor_intCast_add]
  norm_num

/-- Settles O48: the computed word is the real formula's, and each law is one of the formula; (d) is the
distance of a real number from its rounding. -/
theorem phaseLaws : Obligations.PhaseLaws := by
  refine ⟨fun a => ?_, fun a b k hb => ?_, fun a k ha => ?_, fun a => ?_⟩
  · exact Nat.le_of_lt_succ (phaseWord a).isLt
  · have hword : ((phaseWord b).toNat : Int) = (phaseWord a).toNat := by
      rw [phaseWord_eq_realPhase, phaseWord_eq_realPhase, hb, realPhase_add_turns]
    exact BitVec.eq_of_toNat_eq (by exact_mod_cast hword)
  · rw [phaseWord_eq_realPhase, ha, realPhase_grid]
  · exact ⟨⌊realX a.value + 1 / 2⌋, round_eq (realX a.value) ▸ abs_sub_round _, (phaseWord_eq_realPhase a).symm⟩

/-- Settles O49: `q * π` is `2048 * q` steps, and the floor of a rational is that of the real number. -/
theorem phaseOfPiMultiples : Obligations.PhaseOfPiMultiples := by
  intro q
  have hvalue : (Angle.ofPi q).value = q * Real.pi := by simp [Angle.ofPi]
  rw [phaseWord_eq_realPhase, hvalue, realPhase, realX_mul_pi, ← Rat.floor_cast (α := ℝ)]
  push_cast
  rfl

/-! ## The range policy (R133) -/

/-- R133: under `refuse` an initialised block refuses a frequency outside `[0, REFCLK_HZ)`. -/
theorem checkFreq_outOfRange {s : State} {F : Hertz} (hf : s.fsm ≠ .uninit) (hp : s.params.freqOutOfRange = .refuse)
    (hF : F.value < 0 ∨ s.params.refclk.value ≤ F.value) : checkFreq s F = some .freqOutOfRange := by
  have hr : inRange s.params.refclk F = false := by
    rw [← Bool.not_eq_true, inRange_iff, not_and_or, not_le, not_lt]
    exact hF
  rw [checkFreq, if_neg hf, if_pos ⟨hp, hr⟩]

/-- R223: a command that its check refuses is taken, and writes `resp`. -/
theorem exec_refused {s : State} {c : Command} {rest : List Command} {i : Instr} {r : RefuseReason}
    (h : s.Ready c rest) (hi : i.isCommand = true) (hcheck : commandCheck s i c = some r) :
    exec i s = .next ((s.take rest).refuse r) :=
  (exec_command hi s).trans (accept_refused h.idle h.presented hcheck)

/-- Settles O13: both commands have the check `checkFreq`. -/
theorem outOfRangeFrequencyIsRefused : Obligations.OutOfRangeFrequencyIsRefused := by
  intro s c rest r w hready hp hF
  have hcheck := checkFreq_outOfRange hready.initialised hp hF
  exact ⟨exec_refused hready rfl hcheck, exec_refused hready rfl hcheck⟩

end Sys2Proof.Machine

/-! SUPPORT. The Configuration Engine (file 42): its commands in their accept step, and SETFREQ run to its end, to a
failed word, and word by word at the device. -/

namespace Sys2Proof.Machine

/-! ## The accept step -/

/-- Settles O16: SETFREQ's program is one SET, EMIT_CTRL and the two halves, so starting it presents the cache. -/
theorem setfreqIsAccepted : Obligations.SetfreqIsAccepted :=
  fun _ _ _ _ h hadm => exec_ready h rfl (checkFreq_admitted h.initialised hadm)

/-- Settles O17: SETPHASE's program is one EMIT, so starting it presents the phase word. -/
theorem setphaseIsAccepted : Obligations.SetphaseIsAccepted :=
  fun _ _ _ _ h => exec_ready h rfl (checkInitialised_none h.initialised)

/-- Settles O18: either program is one SET and EMIT_CTRL. -/
theorem selectsAreAccepted : Obligations.SelectsAreAccepted := by
  intro s c rest r h
  have hcheck := checkInitialised_none h.initialised
  exact ⟨exec_ready h rfl hcheck, exec_ready h rfl hcheck⟩

/-- Settles O20: either program is one SET of RESET and EMIT_CTRL. -/
theorem resetCommandsAreAccepted : Obligations.ResetCommandsAreAccepted := by
  intro s c rest h
  have hcheck := checkInitialised_none h.initialised
  exact ⟨exec_ready h rfl hcheck, exec_ready h rfl hcheck⟩

/-- R164: SETWAVE's program writes the waveform's flags in the cache and presents the cache. -/
theorem runInternal_waveSets (s : State) (w : Wave) (ops : List MicroOp) :
    runInternal s (waveSets w ++ ops) = runInternal { s with ctrl := setWave s.ctrl w } ops := by
  cases w <;> rfl

/-- R164: the waveform's flag writes touch MODE (bit 1), DIV2 (bit 3) and OPBITEN (bit 5) only. -/
theorem setWave_other_bit (c : Word) (w : Wave) {k : Nat} (h1 : k ≠ 1) (h3 : k ≠ 3) (h5 : k ≠ 5) :
    (setWave c w).getLsbD k = c.getLsbD k := by
  cases w <;> simp [setWave, setFlag_bit, fieldPos, h1, h3, h5]

/-- R164: MODE is set by the triangle only. -/
theorem getFlag_setWave_mode (c : Word) (w : Wave) : getFlag (setWave c w) .mode = (w == .triangle) := by
  cases w <;> simp [setWave]

/-- R164: OPBITEN is set by the two squares only. -/
theorem getFlag_setWave_opbiten (c : Word) (w : Wave) :
    getFlag (setWave c w) .opbiten = (w == .square || w == .squareHalf) := by
  cases w <;> simp [setWave]

/-- R164: DIV2 is written by the two squares only. -/
theorem getFlag_setWave_div2 (c : Word) (w : Wave) : getFlag (setWave c w) .div2 =
    (if w = .square then true else if w = .squareHalf then false else getFlag c .div2) := by
  cases w <;> simp [setWave]

/-- Settles O19: the cache SETWAVE presents is `setWave` of the one before. -/
theorem setwaveIsAccepted : Obligations.SetwaveIsAccepted := by
  intro s c rest w h
  have hexec := exec_ready h rfl (checkInitialised_none h.initialised) (i := .setwave w)
  rw [State.start, commandProgram, runInternal_waveSets, runInternal_emitCtrl] at hexec
  exact ⟨setWave s.ctrl w, hexec, getFlag_setWave_mode _ w, getFlag_setWave_opbiten _ w, getFlag_setWave_div2 _ w,
    fun _ => setWave_other_bit _ w⟩

/-! ## A program in flight, word by word (R192) -/

/-- The state in which a command has sent the words `sent` and waits for the transport's answer to `w`; `ops` is what is
left of its program, its head the emit of `w`. -/
def State.inFlight (s : State) (sent : List Word) (w : Word) (ops : List MicroOp) (as : List TxResult) : State :=
  { s with
    answers := as, busy := true, uprog := ops, wcount := sent.length, txReq := true, txWord := w,
    rx := (allOk sent).foldl Rx.after s.rx, log := s.log ++ allOk sent }

theorem inFlight_answered (s : State) (sent : List Word) (w : Word) (ops : List MicroOp) (res : TxResult)
    (as : List TxResult) : (s.inFlight sent w ops (res :: as)).Answered res as := ⟨rfl, rfl, rfl⟩

theorem allOk_concat (ws : List Word) (w : Word) : allOk (ws ++ [w]) = allOk ws ++ [⟨w, .ok⟩] := by simp [allOk]

/-- The word in flight completes and the word of the EMIT behind it is in flight. -/
theorem run_inFlight_emit (s : State) (sent : List Word) (w w' : Word) (op : MicroOp) (ops : List MicroOp)
    (as : List TxResult) (m : Nat) :
    run (m + 1) (s.inFlight sent w (op :: .emit w' :: ops) (.ok :: as)) =
      run m (s.inFlight (sent ++ [w]) w' (.emit w' :: ops) as) := by
  rw [run_sent (inFlight_answered ..)]
  simp [State.inFlight, State.sent, State.present, allOk_concat]

/-- The last word of a program completes, and the command with it. -/
theorem run_inFlight_last (s : State) (sent : List Word) (w : Word) (op : MicroOp) (as : List TxResult) (m : Nat) :
    run (m + 1) (s.inFlight sent w [op] (.ok :: as)) =
      run m { (s.inFlight (sent ++ [w]) w [] as).complete with txReq := false } := by
  rw [run_sent (inFlight_answered ..)]
  simp [State.inFlight, State.sent, State.complete, allOk_concat]

/-- The word in flight completes, then those of the next `n - 1` EMITs, and word `n` after it is in flight. -/
theorem run_inFlight_emits (s : State) {sent ws : List Word} {w : Word} {n : Nat} (hn : n ≤ ws.length) (op : MicroOp)
    (as : List TxResult) (m : Nat) :
    ∃ w' op', (w :: ws)[n]? = some w' ∧
      run (n + m) (s.inFlight sent w (op :: ws.map .emit) (List.replicate n .ok ++ as)) =
        run m (s.inFlight (sent ++ (w :: ws).take n) w' (op' :: (ws.drop n).map .emit) as) := by
  induction n generalizing sent w ws op with
  | zero => exact ⟨w, op, rfl, by simp⟩
  | succ n ih =>
    cases ws with
    | nil => cases hn
    | cons w₁ ws =>
      obtain ⟨w', op', hw', hrun⟩ := ih (sent := sent ++ [w]) (w := w₁) (Nat.le_of_succ_le_succ hn) (.emit w₁)
      refine ⟨w', op', hw', ?_⟩
      rw [List.append_assoc] at hrun
      rw [Nat.add_right_comm]
      exact (run_inFlight_emit ..).trans hrun

/-! ## SETFREQ -/

/-- What SETFREQ's accept step leaves beside the program: the command taken and B28 set (R160). -/
def State.setfreqTaken (s : State) (rest : List Command) : State :=
  { s with cmds := rest, ctrl := setFlag s.ctrl .b28 true }

/-- R160: SETFREQ starts with the control word in flight and the EMITs of the two halves behind it. -/
theorem start_setfreq (s : State) (cmd : Command) (rest : List Command) (r : Reg) :
    (s.take rest).start (commandProgram s.params (.setfreq r) cmd) =
      (s.setfreqTaken rest).inFlight [] (ctrlWord (setFlag s.ctrl .b28 true))
        (.emitCtrl :: (setfreqWords s.params.refclk s.ctrl r cmd.F).tail.map .emit) s.answers := by
  simp only [State.inFlight, allOk, List.map_nil, List.append_nil]
  rfl

/-- R160: when `n` of SETFREQ's three words have completed, word `n + 1` is in flight and the later ones wait. -/
theorem run_setfreq_inFlight {s : State} {cmd : Command} {rest : List Command} {r : Reg} {as : List TxResult}
    (hready : s.Ready cmd rest) (hhdr : cmd.hdr = encode (.setfreq r)) (hadm : s.admits cmd.F) {n : Nat} (hn : n < 3)
    (ha : s.answers = List.replicate n .ok ++ as) (m : Nat) :
    let ws := setfreqWords s.params.refclk s.ctrl r cmd.F
    ∃ w op, ws[n]? = some w ∧ run (n + m + 1) s =
      run m ((s.setfreqTaken rest).inFlight (ws.take n) w (op :: (ws.drop (n + 1)).map .emit) as) := by
  have haccept := run_accepted hready.idle hready.presented (i := .setfreq r) (hhdr ▸ decodeHeader_encode rfl) rfl
    (checkFreq_admitted hready.initialised hadm) (n + m)
  rw [start_setfreq, ha] at haccept
  obtain ⟨w, op, hw, hrun⟩ := run_inFlight_emits (s.setfreqTaken rest) (sent := [])
    (ws := (setfreqWords s.params.refclk s.ctrl r cmd.F).tail) (Nat.le_of_lt_succ hn) .emitCtrl as m
  exact ⟨w, op, hw, haccept.trans hrun⟩

/-- Settles O35: with two words completed the high half is in flight, and its `Ok` finds the program at its end. -/
theorem setfreqSendsThreeWords : Obligations.SetfreqSendsThreeWords := by
  intro s c rest r as hready hhdr hadm ha
  obtain ⟨w, op, hw, hrun⟩ := run_setfreq_inFlight hready hhdr hadm (n := 2) (as := .ok :: as) (by decide) ha 1
  cases hw
  exact hrun.trans (run_inFlight_last ..)

/-- Settles O36: with `k` words completed word `k + 1` is in flight, and its `Err` ends the command. -/
theorem setfreqAbortsAtAnyWord : Obligations.SetfreqAbortsAtAnyWord := by
  intro s c rest r k e as hready hhdr hadm hk ha
  obtain ⟨w, op, hw, hrun⟩ := run_setfreq_inFlight hready hhdr hadm hk ha 1
  refine ⟨w, hw, hrun.trans ((run_failed (inFlight_answered ..) 0).trans ?_)⟩
  have hlen : ((setfreqWords s.params.refclk s.ctrl r c.F).take k).length = k := List.length_take_of_le (Nat.le_of_lt hk)
  simp [State.inFlight, State.setfreqTaken, State.sent, State.abort, hlen]

/-! ### At the device (R168) -/

section
variable (rx : Rx) (refclk : Hertz) (c : Word) (r : Reg) (F : Hertz)

/-- R160: the control word with B28 = 1 puts the device in load mode. -/
theorem loadMode_after_b28 : (rx.latchCtrl (ctrlWord (setFlag c .b28 true))).loadMode = true := by
  rw [latchCtrl_loadMode, getFlag_ctrlWord, getFlag_setFlag, if_pos rfl]

/-- Word 1 starts a fresh pairing with B28 = 1. -/
theorem foldl_setfreqWords_one : (allOk ((setfreqWords refclk c r F).take 1)).foldl Rx.after rx =
    rx.latchCtrl (ctrlWord (setFlag c .b28 true)) :=
  after_ctrl_ok rx _

/-- Word 2 is held as the low half. -/
theorem foldl_setfreqWords_two : (allOk ((setfreqWords refclk c r F).take 2)).foldl Rx.after rx =
    { rx.latchCtrl (ctrlWord (setFlag c .b28 true)) with pend := .lo r (freqLo refclk F) } := by
  calc
    _ = ((allOk ((setfreqWords refclk c r F).take 1)).foldl Rx.after rx).after
          ⟨freqWordTagged r (freqLo refclk F), .ok⟩ := rfl
    _ = (rx.latchCtrl (ctrlWord (setFlag c .b28 true))).latchFreq r (freqLo refclk F) := by
      rw [foldl_setfreqWords_one, after_freq_ok]
    _ = _ := latchFreq_first (loadMode_after_b28 rx c) rfl

/-- Word 3 latches the 28 bits into FREQr. -/
theorem foldl_setfreqWords_three : (allOk (setfreqWords refclk c r F)).foldl Rx.after rx =
    (rx.latchCtrl (ctrlWord (setFlag c .b28 true))).setFreq r (.known (freqWord28 refclk F)) := by
  calc
    _ = ((allOk ((setfreqWords refclk c r F).take 2)).foldl Rx.after rx).after
          ⟨freqWordTagged r (freqHi refclk F), .ok⟩ := rfl
    _ = { rx.latchCtrl (ctrlWord (setFlag c .b28 true)) with pend := .lo r (freqLo refclk F) }.latchFreq r
          (freqHi refclk F) := by rw [foldl_setfreqWords_two, after_freq_ok]
    _ = _ := by rw [latchFreq_second (by exact loadMode_after_b28 rx c) rfl]; cases r <;> rfl

end

/-- Settles O37: the receiver view after each of the three words. -/
theorem setfreqLatchesAtItsThirdWord : Obligations.SetfreqLatchesAtItsThirdWord := by
  intro s c rest r as hready hhdr hadm ha
  obtain ⟨_, _, _, hrun₁⟩ := run_setfreq_inFlight hready hhdr hadm (n := 1) (as := .ok :: .ok :: as) (by decide) ha 0
  obtain ⟨_, _, _, hrun₂⟩ := run_setfreq_inFlight hready hhdr hadm (n := 2) (as := .ok :: as) (by decide) ha 0
  refine ⟨_, _, _, hrun₁, hrun₂, setfreqSendsThreeWords s c rest r as hready hhdr hadm ha, ?_⟩
  simp only [State.inFlight, State.setfreqTaken]
  rw [foldl_setfreqWords_one, foldl_setfreqWords_two, foldl_setfreqWords_three]
  cases r <;> exact ⟨rfl, rfl, rfl, rfl, rfl, rfl, rfl, rfl⟩

end Sys2Proof.Machine

/-! SUPPORT. The sequencer (file 43), one step at a time: the event a step runs (R5, R191, R192), the refusal before
INIT, and a word in flight that completes or fails. -/

namespace Sys2Proof.Machine

/-! ## The event of a step -/

theorem step_of_wait {s : State} (h : s.event = .wait) : step s = .next s := by simp only [step, h]

theorem step_of_run {s : State} {i : Instr} (h : s.event = .run i) : step s = exec i s := by simp only [step, h]

/-- Settles O5: the next event is the command presented. -/
theorem stepRunsPresentedCommand : Obligations.StepRunsPresentedCommand := by
  intro s c rest i hb hc hd
  exact step_of_run (by simp [State.event, hb, hc, hd])

/-- Settles O6: the next event is the word in flight. -/
theorem stepRunsWordInFlight : Obligations.StepRunsWordInFlight := by
  intro s res rest h
  exact step_of_run (by simp [State.event, h.busy, h.request, h.answered])

/-- Settles O7: with its input missing, either side of the event waits. -/
theorem stepWaitsForItsInputs : Obligations.StepWaitsForItsInputs := by
  constructor
  · intro s hb hc
    exact step_of_wait (by simp [State.event, hb, hc])
  · intro s hb ha
    exact step_of_wait (by simp [State.event, hb, ha])

/-- Everything a step of a busy block can do (R192): wait, or complete the word in flight with `Ok` or `Err`. -/
theorem step_busy_cases {s t : State} (hb : s.busy = true) (h : step s = .next t) :
    t = s ∨
    (∃ rest, t = runInternal
      { s.sent s.txWord .ok rest (s.rx.after ⟨s.txWord, .ok⟩) with wcount := s.wcount + 1 } s.uprog.tail) ∨
    (∃ e rest, t = (s.sent s.txWord (.err e) rest (s.rx.after ⟨s.txWord, .err e⟩)).abort s.txWord e) := by
  rcases step_cases h with ⟨-, rfl⟩ | ⟨r, rest, he, -⟩ | ⟨i, he, hexec⟩
  · exact .inl rfl
  · obtain ⟨c, hidle, -⟩ := event_refuse he
    rw [hidle] at hb
    cases hb
  · rcases event_run he with ⟨c, rest, hidle, -⟩ | ⟨res, rest, -, -, -, rfl⟩
    · rw [hidle] at hb
      cases hb
    · rw [exec_wire (decodeWire_isCommand _), encode_decodeWire] at hexec
      rcases transmit_cases hexec with rfl | ⟨rest, -, -, -, rfl⟩ | ⟨e, rest, -, -, -, rfl⟩
      · exact .inl rfl
      · exact .inr (.inl ⟨rest, rfl⟩)
      · exact .inr (.inr ⟨e, rest, rfl⟩)

/-- Settles O10: the accept step does nothing while busy, and no step of a busy block writes the command port. -/
theorem busyBlockHoldsCommands : Obligations.BusyBlockHoldsCommands := by
  refine ⟨fun i s hb hi => (exec_command hi s).trans (accept_busy hb _ _), fun s t hb hstep => ?_⟩
  rcases step_busy_cases hb hstep with rfl | ⟨rest, rfl⟩ | ⟨e, rest, rfl⟩
  · rfl
  · exact runInternal_cmds _ _
  · rfl

/-! ## Before INIT (R191) -/

/-- R191 and R224: before INIT the check refuses every other command, whatever its slots. -/
theorem commandCheck_uninit {s : State} {i : Instr} (hf : s.fsm = .uninit) (hi : i.isCommand = true)
    (hinit : i ≠ .init) (c : Command) : commandCheck s i c = some .notInitialised := by
  cases i with
  | init => exact absurd rfl hinit
  | setfreq | apply => exact if_pos hf
  | setbit | flush | setphase | selfreq | selphase | setwave | rstassert | rstrelease => exact checkInitialised_some hf
  | ctrlWrite | freq0Write | freq1Write | phase0Write | phase1Write => cases hi

/-- Settles O12: the command is taken and refused, by `State.take` and `State.refuse`. -/
theorem commandsBeforeInitAreRefused : Obligations.CommandsBeforeInitAreRefused := by
  intro s c rest i hb hc hf hi hinit
  exact (exec_command hi s).trans (accept_refused hb hc (commandCheck_uninit hf hi hinit c))

/-! ## The word in flight (R192) -/

/-- R192, `Ok`: a completed word goes on the record, the device latches it, and the rest of the program runs on. -/
theorem exec_answered_ok {i : Instr} {s : State} {rest : List TxResult} (hi : i.isCommand = false)
    (h : s.Answered .ok rest) :
    exec i s = .next (runInternal
      { s.sent (encode i) .ok rest (s.rx.latch i) with wcount := s.wcount + 1 } s.uprog.tail) :=
  (exec_wire hi s).trans (transmit_ok h.busy h.request h.answered _ _ _)

/-- R192, `Err`: a failed word goes on the record, the device loses its target, and the command ends. -/
theorem exec_answered_err {i : Instr} {s : State} {e : TransportError} {rest : List TxResult}
    (hi : i.isCommand = false) (h : s.Answered (.err e) rest) :
    exec i s = .next ((s.sent (encode i) (.err e) rest (s.rx.lose i)).abort (encode i) e) :=
  (exec_wire hi s).trans (transmit_err h.busy h.request h.answered _ _ _)

/-- Settles O23: the engine finds the program at its end. -/
theorem lastWordCompletesTheCommand : Obligations.LastWordCompletesTheCommand := by
  intro i s rest op hi h hprog
  rw [exec_answered_ok hi h, hprog]
  rfl

/-- Settles O24: the engine finds the EMIT and presents its word. -/
theorem completedWordLeadsToTheNext : Obligations.CompletedWordLeadsToTheNext := by
  intro i s rest op w ops hi h hprog
  rw [exec_answered_ok hi h, hprog]
  rfl

/-- Settles O26: what `State.sent` and `State.abort` write. -/
theorem failedWordAbortsTheCommand : Obligations.FailedWordAbortsTheCommand :=
  fun _ _ _ _ hi h => exec_answered_err hi h

theorem headWord_cons (c : Word) (op : MicroOp) (ops : List MicroOp) : headWord c (op :: ops) = emitWord c op := by
  cases op <;> rfl

/-- Settles O25: the engine keeps what the completion step wrote, and stops at the program's end or at an emit. -/
theorem completedWordIsRecorded : Obligations.CompletedWordIsRecorded := by
  intro i s rest hi h
  refine ⟨_, exec_answered_ok hi h, runInternal_answers _ _, runInternal_rx _ _, runInternal_log _ _,
    runInternal_cmds _ _, runInternal_params _ _, ?_⟩
  rcases runInternal_stops { s.sent (encode i) .ok rest (s.rx.latch i) with wcount := s.wcount + 1 } s.uprog.tail with
    ⟨huprog, hbusy, hwcount, hresp, hreq, hword⟩ |
    ⟨⟨op, ops, huprog, hemit⟩, hsuffix, hbusy, hreq, hwcount, hresp⟩
  · exact .inl ⟨hbusy, hreq, huprog, hwcount, hresp, hword⟩
  · refine .inr ⟨hbusy.trans h.busy, hreq, ?_, hsuffix, hwcount, hresp⟩
    rw [huprog, headWord_cons, hemit]

end Sys2Proof.Machine

/-! SUPPORT. The composite sequences, APPLY and INIT (R193, R195): their accept step, their seven words, the cache they
leave and what the device holds word by word (R198). -/

namespace Sys2Proof.Machine

/-! ## The program, cut at its words -/

/-- R193: APPLY's program from its first word on, cut before each of the seven words: every block is the emit of a word
and the operations that run when that word has completed. -/
def Composite.blocks (refclk : Hertz) (k : Composite) : List (List MicroOp) :=
  [[.emitCtrl, .set .fsel k.r.bit, .set .psel k.r.bit, .set .b28 true],
   [.emitCtrl],
   [.emit (freqWordTagged k.r (freqLo refclk k.F))],
   [.emit (freqWordTagged k.r (freqHi refclk k.F))],
   phaseEmit k.r k.P :: waveSets k.w,
   [.emitCtrl, .set .reset false],
   [.emitCtrl, .fsm .idle]]

/-- What is left of the program when word `n + 1` is in flight. -/
def Composite.left (refclk : Hertz) (k : Composite) (n : Nat) : List MicroOp := ((k.blocks refclk).drop n).flatten

/-- R193: the program runs to its first word: RECONF is entered, RESET set and the control word presented. -/
theorem runInternal_applyProgram (s : State) (refclk : Hertz) (r : Reg) (F : Hertz) (P : Angle) (w : Wave) :
    runInternal s (applyProgram refclk r F P w) =
      { s with fsm := .reconf, ctrl := setFlag s.ctrl .reset true }.present (ctrlWord (setFlag s.ctrl .reset true))
        (Composite.left refclk ⟨s.ctrl, r, F, P, w⟩ 0) := rfl

/-- R195: INIT's program loads CTRL_INIT and is APPLY's from there. -/
theorem runInternal_initProgram (s : State) (p : Params) :
    runInternal s (initProgram p) = runInternal { s with ctrl := loadCtrl p.ctrlInit }
      (applyProgram p.refclk p.initPair p.initFreq p.initPhase p.initWave) := rfl

/-- R193: behind a word the program writes the cache for the next word and presents it. -/
theorem runInternal_left {k : Composite} {refclk : Hertz} {n : Nat} (hn : n < 6) {w : Word}
    (hw : (k.words refclk)[n + 1]? = some w) {s : State} (hs : s.ctrl = k.cacheAt (n + 1)) :
    runInternal s (k.left refclk n).tail =
      { s with ctrl := k.cacheAt (n + 2) }.present w (k.left refclk (n + 1)) := by
  cases s
  cases hs
  interval_cases n <;> cases hw
  · rfl
  · rfl
  · rfl
  · rfl
  · exact runInternal_waveSets _ k.w _
  · rfl

/-! ## The accept step -/

/-- Settles O21: `runInternal_applyProgram` on the cache as it is. -/
theorem applyIsAccepted : Obligations.ApplyIsAccepted := by
  intro s c rest r w hready hadm
  have hexec := exec_ready hready (i := .apply r w) rfl (checkFreq_admitted hready.initialised hadm)
  rw [State.start, commandProgram, runInternal_applyProgram] at hexec
  exact hexec

/-- R6 and R21: `CTRL_INIT` is clear in the unnamed bits. -/
theorem ctrlInit_unnamed {p : Params} (h : p.wf = true) : p.ctrlInit &&& ~~~namedBits = 0 := by
  simp only [Params.wf, Bool.and_eq_true, beq_iff_eq] at h
  obtain ⟨⟨⟨-, hinit⟩, -⟩, -⟩ := h
  exact hinit

/-- Settles O22: no check refuses INIT, and CTRL_INIT is loaded as it is. -/
theorem initIsAcceptedInEveryState : Obligations.InitIsAcceptedInEveryState := by
  intro s c rest hb hc hwf
  have hexec := (exec_command (i := .init) rfl s).trans (accept_started hb hc rfl)
  rw [State.start, commandProgram, runInternal_initProgram, loadCtrl_of_unnamed (ctrlInit_unnamed hwf),
    runInternal_applyProgram] at hexec
  exact hexec

/-! ## The seven words -/

/-- The state in which a composite command has sent its first `n` words and waits for the answer to the next, `w`. -/
def State.compositeInFlight (s : State) (rest : List Command) (k : Composite) (n : Nat) (w : Word)
    (as : List TxResult) : State :=
  { s with cmds := rest, fsm := .reconf, ctrl := k.cacheAt (n + 1) }.inFlight ((k.words s.params.refclk).take n) w
    (k.left s.params.refclk n) as

/-- The accept step of a composite command puts its first word in flight. -/
theorem run_composite_accepted {s : State} {c : Command} {rest : List Command} {k : Composite}
    (h : s.StartsComposite c rest k) (m : Nat) :
    run (m + 1) s = run m (s.compositeInFlight rest k 0 (ctrlWord (k.cacheAt 1)) s.answers) := by
  simp only [State.compositeInFlight, State.inFlight, allOk, List.take_zero, List.map_nil, List.append_nil]
  cases h with
  | apply r w ready hdr admitted =>
    exact run_accepted ready.idle ready.presented (i := .apply r w) (hdr ▸ decodeHeader_encode rfl) rfl
      (checkFreq_admitted ready.initialised admitted) m
  | init idle presented hdr =>
    exact run_accepted idle presented (i := .init) (hdr ▸ decodeHeader_encode rfl) rfl rfl m

/-- A word of a composite command completes and the next one is in flight. -/
theorem run_compositeInFlight (s : State) (rest : List Command) {k : Composite} {n : Nat} {w w' : Word} (hn : n < 6)
    (hw : (k.words s.params.refclk)[n]? = some w) (hw' : (k.words s.params.refclk)[n + 1]? = some w')
    (as : List TxResult) (m : Nat) :
    run (m + 1) (s.compositeInFlight rest k n w (.ok :: as)) = run m (s.compositeInFlight rest k (n + 1) w' as) := by
  refine (run_sent (inFlight_answered ..) m).trans (congrArg (run m) ?_)
  refine (runInternal_left hn hw' rfl).trans ?_
  simp [State.compositeInFlight, State.inFlight, State.sent, State.present, List.take_add_one, hw, allOk_concat]

/-- When `n` of the seven words have completed, word `n + 1` is in flight with the cache of the rule. -/
theorem run_composite_inFlight {s : State} {c : Command} {rest : List Command} {k : Composite}
    (h : s.StartsComposite c rest k) {n : Nat} (hn : n < 7) {as : List TxResult}
    (ha : s.answers = List.replicate n .ok ++ as) (m : Nat) :
    ∃ w, (k.words s.params.refclk)[n]? = some w ∧ run (n + m + 1) s = run m (s.compositeInFlight rest k n w as) := by
  induction n generalizing as m with
  | zero =>
    refine ⟨_, rfl, ?_⟩
    rw [Nat.zero_add, run_composite_accepted h, ha]
    rfl
  | succ n ih =>
    rw [List.replicate_succ', List.append_assoc] at ha
    obtain ⟨w, hw, hrun⟩ := ih (by omega) ha (m + 1)
    have hw' : (k.words s.params.refclk)[n + 1]? = some _ := List.getElem?_eq_getElem hn
    refine ⟨_, hw', ?_⟩
    rw [Nat.add_right_comm n 1 m, Nat.add_assoc n m 1, hrun]
    exact run_compositeInFlight s rest (by omega) hw hw' as m

/-- Settles O38: with six words completed the seventh is in flight, and behind it only FSM(IDLE) is left. -/
theorem compositeSendsSevenWords : Obligations.CompositeSendsSevenWords := by
  intro s c rest k as h ha
  obtain ⟨w, hw, hrun⟩ := run_composite_inFlight h (n := 6) (as := .ok :: as) (by decide) ha 1
  obtain rfl : ctrlWord (k.cacheAt 7) = w := Option.some.inj hw
  have hleft : (k.left s.params.refclk 6).tail = [.fsm .idle] := rfl
  have hwords : allOk (k.words s.params.refclk) =
      allOk ((k.words s.params.refclk).take 6) ++ [⟨ctrlWord (k.cacheAt 7), .ok⟩] := rfl
  refine hrun.trans ((run_sent (inFlight_answered ..) 0).trans ?_)
  rw [hwords]
  simp [State.inFlight, State.sent, hleft, State.complete, FsmTarget.toFsm]

/-! ## The cache (R193) -/

section
variable (k : Composite) {n : Nat}

/-- R164: a waveform's flag writes leave the unnamed bits alone. -/
@[simp] theorem setWave_unnamed (c : Word) (w : Wave) : setWave c w &&& ~~~namedBits = c &&& ~~~namedBits := by
  cases w <;> simp [setWave]

/-- R164: a waveform writes MODE, OPBITEN and DIV2 only. -/
theorem getFlag_setWave_other (c : Word) (w : Wave) {f : Field} (hmode : f ≠ .mode) (hopbiten : f ≠ .opbiten)
    (hdiv2 : f ≠ .div2) : getFlag (setWave c w) f = getFlag c f := by
  cases w <;> simp [setWave, hmode, hopbiten, hdiv2]

/-- R193: no word's cache differs from the one the command began with in an unnamed bit. -/
theorem cacheAt_unnamed : k.cacheAt n &&& ~~~namedBits = k.cache &&& ~~~namedBits := by
  unfold Composite.cacheAt applyCache
  split_ifs <;> simp

/-- R193: RESET is 1 from the first word to the sixth, and 0 at the seventh. -/
theorem getFlag_cacheAt_reset : getFlag (k.cacheAt n) .reset = decide (n ≤ 6) := by
  unfold Composite.cacheAt applyCache
  split_ifs <;> simp [getFlag_setWave_other] <;> omega

/-- R193: from the second word on FSEL and PSEL are the pair's and B28 is 1. -/
theorem getFlag_cacheAt_pair (hn : 2 ≤ n) : getFlag (k.cacheAt n) .fsel = k.r.bit ∧
    getFlag (k.cacheAt n) .psel = k.r.bit ∧ getFlag (k.cacheAt n) .b28 = true := by
  simp only [Composite.cacheAt, applyCache]
  rw [if_neg (by omega : ¬n ≤ 1)]
  split_ifs <;> simp [getFlag_setWave_other]

/-- R193 and R164: from the sixth word on MODE, OPBITEN and DIV2 are the waveform's. -/
theorem getFlag_cacheAt_wave (hn : 6 ≤ n) : getFlag (k.cacheAt n) .mode = (k.w == .triangle) ∧
    getFlag (k.cacheAt n) .opbiten = (k.w == .square || k.w == .squareHalf) ∧
    getFlag (k.cacheAt n) .div2 =
      (if k.w = .square then true else if k.w = .squareHalf then false else getFlag k.cache .div2) := by
  simp only [Composite.cacheAt, applyCache]
  rw [if_neg (by omega : ¬n ≤ 1), if_neg (by omega : ¬n ≤ 5)]
  by_cases h6 : n ≤ 6 <;> simp [h6, getFlag_setWave_mode, getFlag_setWave_opbiten, getFlag_setWave_div2]

/-- R193: no word's cache differs from the one the command began with in a sleep bit. -/
theorem cacheAt_sameSleep : SameSleep k.cache (k.cacheAt n) := by
  unfold SameSleep Composite.cacheAt applyCache
  split_ifs <;> simp [getFlag_setWave_other]

end

/-- Settles O39: the flags of the cache with which the seventh word is in flight. -/
theorem compositeLeavesThisCache : Obligations.CompositeLeavesThisCache := by
  intro s c rest k as h ha
  obtain ⟨hfsel, hpsel, hb28⟩ := getFlag_cacheAt_pair k (n := 7) (by decide)
  obtain ⟨hmode, hopbiten, hdiv2⟩ := getFlag_cacheAt_wave k (n := 7) (by decide)
  obtain ⟨hsleep1, hsleep12⟩ := cacheAt_sameSleep k (n := 7)
  exact ⟨_, compositeSendsSevenWords s c rest k as h ha, getFlag_cacheAt_reset k, hfsel, hpsel, hb28, hmode, hopbiten,
    hdiv2, hsleep1, hsleep12⟩

/-! ## At the device (R198) -/

/-- R47: a device whose last control word has RESET = 1 has its output Forced. -/
theorem out_forced {rx : Rx} {c : Word} (hctrl : rx.ctrl = .known c) (hreset : getFlag c .reset = true) :
    rx.out = .forced := by
  simp [Rx.out, hctrl, hreset]

/-- R47: a device whose last control word has RESET = 0 drives its output from the registers the word selects. -/
theorem out_running {rx : Rx} {c : Word} (hctrl : rx.ctrl = .known c) (hreset : getFlag c .reset = false) :
    rx.out = .running (rx.freq (regOfBit (getFlag c .fsel))) (rx.phase (regOfBit (getFlag c .psel)))
      (getFlag c .mode) (getFlag c .opbiten) (getFlag c .div2) := by
  simp [Rx.out, Rx.selected, hctrl, hreset]

@[simp] theorem latchCtrl_freq (rx : Rx) (w : Word) (r : Reg) : (rx.latchCtrl w).freq r = rx.freq r := by
  cases r <;> rfl

@[simp] theorem latchCtrl_phase (rx : Rx) (w : Word) (r : Reg) : (rx.latchCtrl w).phase r = rx.phase r := by
  cases r <;> rfl

@[simp] theorem regOfBit_bit (r : Reg) : regOfBit r.bit = r := by cases r <;> rfl

theorem regOther_ne (r : Reg) : regOther r ≠ r := by cases r <;> decide

/-- What the device holds when the first `n` words have completed, from `rx` on. -/
def Composite.deviceAfter (refclk : Hertz) (k : Composite) (rx : Rx) (n : Nat) : Rx :=
  (allOk ((k.words refclk).take n)).foldl Rx.after rx

section
variable (refclk : Hertz) (k : Composite) (rx : Rx)

theorem deviceAfter_succ {n : Nat} {w : Word} (hw : (k.words refclk)[n]? = some w) :
    k.deviceAfter refclk rx (n + 1) = (k.deviceAfter refclk rx n).after ⟨w, .ok⟩ := by
  simp [Composite.deviceAfter, List.take_add_one, hw, allOk_concat]

/-- Word 1 is latched. -/
theorem deviceAfter_one : k.deviceAfter refclk rx 1 = rx.latchCtrl (ctrlWord (k.cacheAt 1)) := after_ctrl_ok ..

/-- Words 2 to 4 are those of a SETFREQ (R160) from the cache that has RESET = 1 and selects the pair. -/
theorem deviceAfter_setfreqWords {n : Nat} (hn : n ≤ 3) : k.deviceAfter refclk rx (n + 1) =
    (allOk ((setfreqWords refclk (setFlag (setFlag (k.cacheAt 1) .fsel k.r.bit) .psel k.r.bit) k.r k.F).take n)).foldl
      Rx.after (rx.latchCtrl (ctrlWord (k.cacheAt 1))) := by
  have hwords : k.words refclk = ctrlWord (k.cacheAt 1) ::
      (setfreqWords refclk (setFlag (setFlag (k.cacheAt 1) .fsel k.r.bit) .psel k.r.bit) k.r k.F ++
        [phaseWordTagged k.r (phaseWord k.P), ctrlWord (k.cacheAt 6), ctrlWord (k.cacheAt 7)]) := rfl
  rw [Composite.deviceAfter, hwords, List.take_succ_cons, List.take_append_of_le_length hn, allOk, List.map_cons,
    List.foldl_cons, after_ctrl_ok]
  rfl

/-- Word 2 is latched in place of word 1. -/
theorem deviceAfter_two : k.deviceAfter refclk rx 2 = rx.latchCtrl (ctrlWord (k.cacheAt 2)) :=
  (deviceAfter_setfreqWords refclk k rx (by decide)).trans (foldl_setfreqWords_one ..)

/-- Word 3 is held as the low half. -/
theorem deviceAfter_three : k.deviceAfter refclk rx 3 =
    { rx.latchCtrl (ctrlWord (k.cacheAt 2)) with pend := .lo k.r (freqLo refclk k.F) } :=
  (deviceAfter_setfreqWords refclk k rx (by decide)).trans (foldl_setfreqWords_two ..)

/-- Word 4 latches the 28 bits into FREQr. -/
theorem deviceAfter_four : k.deviceAfter refclk rx 4 =
    (rx.latchCtrl (ctrlWord (k.cacheAt 2))).setFreq k.r (.known (freqWord28 refclk k.F)) :=
  (deviceAfter_setfreqWords refclk k rx (by decide)).trans (foldl_setfreqWords_three ..)

/-- Word 5 is latched into PHASEr. -/
theorem deviceAfter_five : k.deviceAfter refclk rx 5 =
    ((rx.latchCtrl (ctrlWord (k.cacheAt 2))).setFreq k.r (.known (freqWord28 refclk k.F))).setPhase k.r
      (.known (phaseWord k.P)) := by
  rw [deviceAfter_succ refclk k rx rfl, deviceAfter_four, after_phase_ok, Rx.latchPhase]

/-- Words 6 and 7 are latched, and leave what the words before them left in the registers. -/
theorem deviceAfter_six : k.deviceAfter refclk rx 6 =
    (k.deviceAfter refclk rx 5).latchCtrl (ctrlWord (k.cacheAt 6)) :=
  (deviceAfter_succ refclk k rx rfl).trans (after_ctrl_ok ..)

theorem deviceAfter_seven : k.deviceAfter refclk rx 7 =
    (k.deviceAfter refclk rx 5).latchCtrl (ctrlWord (k.cacheAt 7)) := by
  rw [deviceAfter_succ refclk k rx rfl, deviceAfter_six]
  exact after_ctrl_ok ..

/-- R198: after each word the device's control register is the control word of the cache the word was in flight with. -/
theorem deviceAfter_ctrl {n : Nat} (h1 : 1 ≤ n) (h7 : n ≤ 7) :
    (k.deviceAfter refclk rx n).ctrl = .known (ctrlWord (k.cacheAt n)) := by
  interval_cases n
  · rw [deviceAfter_one]; rfl
  · rw [deviceAfter_two]; rfl
  · rw [deviceAfter_three]; rfl
  · rw [deviceAfter_four, setFreq_ctrl]; rfl
  · rw [deviceAfter_five, setPhase_ctrl, setFreq_ctrl]; rfl
  · rw [deviceAfter_six]; rfl
  · rw [deviceAfter_seven]; rfl

/-- R198: RESET gates the output from word 1 to word 6. -/
theorem deviceAfter_out_forced {n : Nat} (h1 : 1 ≤ n) (h6 : n ≤ 6) : (k.deviceAfter refclk rx n).out = .forced := by
  refine out_forced (deviceAfter_ctrl refclk k rx h1 (by omega)) ?_
  rw [getFlag_ctrlWord, getFlag_cacheAt_reset, decide_eq_true h6]

/-- R193: of the frequency registers the pair's alone is written. -/
theorem deviceAfter_seven_freq (r : Reg) : (k.deviceAfter refclk rx 7).freq r =
    if r = k.r then .known (freqWord28 refclk k.F) else rx.freq r := by
  simp [deviceAfter_seven, deviceAfter_five]

/-- R193: of the phase registers the pair's alone is written. -/
theorem deviceAfter_seven_phase (r : Reg) : (k.deviceAfter refclk rx 7).phase r =
    if r = k.r then .known (phaseWord k.P) else rx.phase r := by
  simp [deviceAfter_seven, deviceAfter_five]

/-- R198: after word 7 the output runs with the pair's new frequency and phase and the cache's shape. -/
theorem deviceAfter_seven_out : (k.deviceAfter refclk rx 7).out =
    .running (.known (freqWord28 refclk k.F)) (.known (phaseWord k.P)) (getFlag (k.cacheAt 7) .mode)
      (getFlag (k.cacheAt 7) .opbiten) (getFlag (k.cacheAt 7) .div2) := by
  obtain ⟨hfsel, hpsel, -⟩ := getFlag_cacheAt_pair k (n := 7) (by decide)
  have hreset : getFlag (ctrlWord (k.cacheAt 7)) .reset = false :=
    (getFlag_ctrlWord ..).trans (getFlag_cacheAt_reset k)
  rw [out_running (deviceAfter_ctrl refclk k rx (by decide) (by decide)) hreset]
  simp [hfsel, hpsel, deviceAfter_seven_freq, deviceAfter_seven_phase]

end

/-- When `n` of the seven words have completed, the device holds `deviceAfter n`. -/
theorem run_composite_rx {s : State} {c : Command} {rest : List Command} {k : Composite} {as : List TxResult}
    (h : s.StartsComposite c rest k) (ha : s.answers = List.replicate 7 .ok ++ as) {n : Nat} (hn : n < 7) :
    ∃ t, run (n + 1) s = .next t ∧ t.rx = k.deviceAfter s.params.refclk s.rx n := by
  have hsplit : s.answers = List.replicate n .ok ++ (List.replicate (7 - n) .ok ++ as) := by
    rw [ha, ← List.append_assoc, List.replicate_append_replicate, Nat.add_sub_cancel' (Nat.le_of_lt hn)]
  obtain ⟨w, -, hrun⟩ := run_composite_inFlight h hn hsplit 0
  exact ⟨_, hrun, rfl⟩

/-- R195 and R21: a composite command begins with a cache clear in the unnamed bits if the block's cache is. -/
theorem composite_cache_unnamed {s : State} {c : Command} {rest : List Command} {k : Composite}
    (h : s.StartsComposite c rest k) (hs : s.ctrl &&& ~~~namedBits = 0) : k.cache &&& ~~~namedBits = 0 := by
  cases h with
  | apply => exact hs
  | init => exact loadCtrl_unnamed _

/-- When all seven words have completed: the cache, the device and the record. -/
theorem run_composite_complete {s : State} {c : Command} {rest : List Command} {k : Composite} {as : List TxResult}
    (h : s.StartsComposite c rest k) (ha : s.answers = List.replicate 7 .ok ++ as) :
    ∃ t, run 8 s = .next t ∧ t.ctrl = k.cacheAt 7 ∧ t.rx = k.deviceAfter s.params.refclk s.rx 7 ∧
      t.log = s.log ++ allOk ((k.words s.params.refclk).take 6) ++ [⟨ctrlWord (k.cacheAt 7), .ok⟩] := by
  refine ⟨_, compositeSendsSevenWords s c rest k as h ha, rfl, rfl, ?_⟩
  rw [List.append_assoc]
  rfl

/-- Settles O42: the receiver view after each word; the seventh is the control word of the cache, so the cache is not
stale. -/
theorem compositeIsAtomicAtTheOutput : Obligations.CompositeIsAtomicAtTheOutput := by
  intro s c rest k as h ha
  refine ⟨fun n h1 h6 => ?_, ?_, ?_, ?_, ?_⟩
  · obtain ⟨t, hrun, hrx⟩ := run_composite_rx h ha (n := n) (by omega)
    exact ⟨t, hrun, hrx ▸ deviceAfter_out_forced _ k s.rx h1 h6⟩
  · obtain ⟨t, hrun, hrx⟩ := run_composite_rx h ha (n := 3) (by decide)
    exact ⟨t, hrun, by rw [hrx, deviceAfter_three]⟩
  · obtain ⟨t, hrun, hrx⟩ := run_composite_rx h ha (n := 4) (by decide)
    exact ⟨t, hrun, by simp [hrx, deviceAfter_four]⟩
  · obtain ⟨t, hrun, hrx⟩ := run_composite_rx h ha (n := 5) (by decide)
    exact ⟨t, hrun, by simp [hrx, deviceAfter_five]⟩
  · obtain ⟨t, hrun, hctrl, hrx, hlog⟩ := run_composite_complete h ha
    obtain ⟨hfsel, hpsel, -⟩ := getFlag_cacheAt_pair k (n := 7) (by decide)
    have hother := regOther_ne k.r
    rw [← hctrl] at hlog
    refine ⟨t, hrun, ?_, stale_of_log hlog nofun, ?_⟩ <;> rw [hctrl]
    · exact hrx ▸ deviceAfter_ctrl _ k s.rx (by decide) (by decide)
    refine ⟨getFlag_cacheAt_reset k, hfsel, hpsel,
      fun hs => ctrlWord_of_unnamed ((cacheAt_unnamed k).trans (composite_cache_unnamed h hs)), ?_⟩
    rw [hrx]
    exact ⟨(deviceAfter_seven_freq ..).trans (if_neg hother), (deviceAfter_seven_phase ..).trans (if_neg hother),
      deviceAfter_seven_out ..⟩

end Sys2Proof.Machine

/-! SUPPORT. The transitions of `fsm` (R196): what the engine, the accept step and the completion step make of it. -/

namespace Sys2Proof.Machine

/-- R190: no micro-operation enters UNINIT. -/
theorem runInternal_uninit {s : State} {ops : List MicroOp} (h : (runInternal s ops).fsm = .uninit) :
    s.fsm = .uninit := by
  induction ops generalizing s with
  | nil => exact h
  | cons op ops ih =>
    cases op with
    | set f b => exact ih (s := { s with ctrl := setFlag s.ctrl f b }) h
    | load c => exact ih (s := { s with ctrl := loadCtrl c }) h
    | fsm t =>
      have ht : t.toFsm = .uninit := ih (s := { s with fsm := t.toFsm }) h
      cases t <;> cases ht
    | emitCtrl | emit => exact h

/-- R193: a waiting program changes `fsm` only by the FSM(IDLE) at its end, with which the command completes. -/
theorem runInternal_waiting_fsm {s : State} {ops : List MicroOp} (h : waitingProg ops = true) :
    (runInternal s ops).fsm = s.fsm ∨
    (MicroOp.fsm .idle ∈ ops ∧ (runInternal s ops).fsm = .idle ∧ (runInternal s ops).busy = false ∧
      (runInternal s ops).resp = .ok) := by
  induction ops generalizing s with
  | nil => exact .inl rfl
  | cons op ops ih =>
    obtain ⟨hop, hops, hlast⟩ := waitingProg_cons h
    cases op with
    | set f b =>
      exact (ih (s := { s with ctrl := setFlag s.ctrl f b }) hops).imp id
        fun ⟨hmem, hend⟩ => ⟨List.mem_cons_of_mem _ hmem, hend⟩
    | load c => cases hop
    | fsm t =>
      cases t with
      | reconf => cases hop
      | idle =>
        obtain rfl := hlast rfl
        exact .inr ⟨List.mem_cons_self, rfl, rfl, rfl⟩
    | emitCtrl | emit => exact .inl rfl

/-- The program of a command that is not composite holds no FSM operation. -/
theorem commandProgram_no_fsm {i : Instr} (hinit : i ≠ .init) (happly : ∀ r w, i ≠ .apply r w) (p : Params)
    (cmd : Command) (t : FsmTarget) : MicroOp.fsm t ∉ commandProgram p i cmd := by
  cases i with
  | init => exact absurd rfl hinit
  | apply r w => exact absurd rfl (happly r w)
  | setwave w => cases w <;> simp [commandProgram, waveSets]
  | setbit | flush | setfreq | setphase | selfreq | selphase | rstassert | rstrelease =>
    simp [commandProgram, freqEmits, phaseEmit]
  | ctrlWrite | freq0Write | freq1Write | phase0Write | phase1Write => simp [commandProgram]

/-- R191 and R192: no instruction enters UNINIT. -/
theorem exec_uninit {i : Instr} {s t : State} (h : exec i s = .next t) (ht : t.fsm = .uninit) : s.fsm = .uninit := by
  cases hi : i.isCommand with
  | true =>
    rw [exec_command hi] at h
    rcases accept_cases h with rfl | ⟨c, rest, r, -, -, -, rfl⟩ | ⟨c, rest, -, -, -, rfl⟩
    · exact ht
    · exact ht
    · exact (runInternal_uninit ht :)
  | false =>
    rw [exec_wire hi] at h
    rcases transmit_cases h with rfl | ⟨rest, -, -, -, rfl⟩ | ⟨e, rest, -, -, -, rfl⟩
    · exact ht
    · exact (runInternal_uninit ht :)
    · exact ht

theorem step_uninit {s t : State} (h : step s = .next t) (ht : t.fsm = .uninit) : s.fsm = .uninit := by
  rcases step_cases h with ⟨-, rfl⟩ | ⟨r, rest, -, rfl⟩ | ⟨i, -, hexec⟩
  · exact ht
  · exact ht
  · exact exec_uninit hexec ht

/-- A command that is not composite leaves `fsm` as it was, refused or not. -/
theorem exec_plain_fsm {i : Instr} {s t : State} (hi : i.isCommand = true) (hinit : i ≠ .init)
    (happly : ∀ r w, i ≠ .apply r w) (h : exec i s = .next t) : t.fsm = s.fsm := by
  rw [exec_command hi] at h
  rcases accept_cases h with rfl | ⟨c, rest, r, -, -, -, rfl⟩ | ⟨c, rest, -, -, -, rfl⟩
  · rfl
  · rfl
  · exact runInternal_fsm_eq _ _ (commandProgram_no_fsm hinit happly s.params c)

/-- A busy block's step that changes `fsm` completes a composite command. -/
theorem step_busy_fsm {s t : State} (hinv : s.Inv) (hb : s.busy = true) (h : step s = .next t) (hne : t.fsm ≠ s.fsm) :
    s.fsm = .reconf ∧ t.fsm = .idle ∧ t.busy = false ∧ t.resp = .ok := by
  rcases step_busy_cases hb h with rfl | ⟨rest, rfl⟩ | ⟨e, rest, rfl⟩
  · exact absurd rfl hne
  · rcases runInternal_waiting_fsm (waitingProg_tail hinv.waiting) with hsame | ⟨hmem, hend⟩
    · exact absurd hsame hne
    · exact ⟨hinv.reconf (List.mem_of_mem_tail hmem), hend⟩
  · exact absurd rfl hne

/-- R133 and R191: the check of a frequency passes only one that the policy admits. -/
theorem admits_of_checkFreq {s : State} {F : Hertz} (h : checkFreq s F = none) : s.admits F := by
  unfold checkFreq at h
  split_ifs at h with hf hrefuse
  cases hp : s.params.freqOutOfRange with
  | wrap => exact .inl hp
  | refuse =>
    refine .inr ((inRange_iff ..).1 ?_)
    simpa [hp] using hrefuse

/-- A command that its check refuses leaves `fsm` as it was, also where it is held or not there. -/
theorem exec_refused_fsm {i : Instr} {s t : State} (hi : i.isCommand = true)
    (hcheck : ∀ c rest, s.cmds = c :: rest → commandCheck s i c ≠ none) (h : exec i s = .next t) : t.fsm = s.fsm := by
  rw [exec_command hi] at h
  rcases accept_cases h with rfl | ⟨c, rest, r, -, -, -, rfl⟩ | ⟨c, rest, -, hc, hnone, rfl⟩
  · rfl
  · rfl
  · exact absurd hnone (hcheck c rest hc)

/-- Settles O55: one lemma per clause of the rule. -/
theorem fsmTransitions : Obligations.FsmTransitions := by
  refine ⟨fun _ _ => step_uninit, fun s c rest hb hc => ?_, fun s c rest r w hready hadm => ?_,
    fun _ _ _ => exec_plain_fsm, fun _ _ => step_busy_fsm, fun s t e rest h hstep => ?_,
    fun s t r rest he hstep => ?_, fun i s t hi hinit hf hexec => ?_, fun s t c rest r w hc hadm hexec => ?_⟩
  · exact ⟨_, (exec_command rfl s).trans (accept_started hb hc rfl), rfl⟩
  · exact ⟨_, applyIsAccepted s c rest r w hready hadm, rfl⟩
  · rw [stepRunsWordInFlight s _ rest h, exec_answered_err (decodeWire_isCommand _) h] at hstep
    cases hstep
    rfl
  · rcases step_cases hstep with ⟨-, rfl⟩ | ⟨r', rest', -, rfl⟩ | ⟨i, he', -⟩
    · rfl
    · rfl
    · rw [he] at he'
      cases he'
  · have hcheck c rest (_ : s.cmds = c :: rest) : commandCheck s i c ≠ none := by
      rw [commandCheck_uninit hf hi hinit c]
      nofun
    exact (exec_refused_fsm hi hcheck hexec).trans hf
  · refine exec_refused_fsm (i := .apply r w) rfl (fun c' rest' hc' hnone => hadm ?_) hexec
    obtain ⟨rfl, -⟩ := List.cons.inj (hc.symm.trans hc')
    exact admits_of_checkFreq hnone

end Sys2Proof.Machine

/-! SUPPORT. The exceptions (file 60): a command that ends early because a word failed (R221), for the commands of one
word and for APPLY and INIT, and what an aborted APPLY or INIT leaves at the device (R222). -/

namespace Sys2Proof.Machine

/-- Settles O34: the accept step puts the one word in flight, and its `Err` ends the command. -/
theorem oneWordCommandsAbort : Obligations.OneWordCommandsAbort := by
  intro s c rest i x w e as hready hhdr hone ha
  obtain ⟨op, haccept⟩ := run_oneWord_accepted hready hhdr hone 1
  have hanswered : (s.oneWordInFlight rest x w op).Answered (.err e) as := ⟨rfl, rfl, ha⟩
  exact haccept.trans (run_failed hanswered 0)

/-- Settles O40: with `n` words completed word `n + 1` is in flight, and its `Err` ends the command in RECONF. -/
theorem compositeAbortsAtAnyWord : Obligations.CompositeAbortsAtAnyWord := by
  intro s c rest k n e as h hn ha
  obtain ⟨w, hw, hrun⟩ := run_composite_inFlight h hn ha 1
  refine ⟨w, hw, hrun.trans ((run_failed (inFlight_answered ..) 0).trans ?_)⟩
  have hlen : ((k.words s.params.refclk).take n).length = n := List.length_take_of_le (Nat.le_of_lt hn)
  simp [State.inFlight, State.sent, State.abort, hlen]

/-! ## A failed word at the device (R46) -/

/-- R46 and R47: a failed control word leaves the control register, the pairing and the output Unknown. -/
theorem loseCtrl_unknown (rx : Rx) :
    rx.loseCtrl.ctrl = .unknown ∧ rx.loseCtrl.pend = .unknown ∧ rx.loseCtrl.out = .unknown := ⟨rfl, rfl, rfl⟩

@[simp] theorem loseFreq_ctrl (rx : Rx) (r : Reg) : (rx.loseFreq r).ctrl = rx.ctrl := setFreq_ctrl ..

@[simp] theorem loseFreq_freq_self (rx : Rx) (r : Reg) : (rx.loseFreq r).freq r = .unknown := by cases r <;> rfl

@[simp] theorem losePhase_ctrl (rx : Rx) (r : Reg) : (rx.losePhase r).ctrl = rx.ctrl := setPhase_ctrl ..

@[simp] theorem losePhase_freq (rx : Rx) (r r' : Reg) : (rx.losePhase r).freq r' = rx.freq r' := setPhase_freq ..

@[simp] theorem losePhase_phase_self (rx : Rx) (r : Reg) : (rx.losePhase r).phase r = .unknown := by
  simp [Rx.losePhase]

/-! ## The failed word of an APPLY or INIT (R222) -/

section
variable {refclk : Hertz} {k : Composite} {n : Nat} {w : Word} (rx : Rx) (e : TransportError)

/-- Words 1, 2, 6 and 7 are control words. -/
theorem after_composite_ctrl_err (hn : n = 0 ∨ n = 1 ∨ n = 5 ∨ n = 6) (hw : (k.words refclk)[n]? = some w) :
    rx.after ⟨w, .err e⟩ = rx.loseCtrl := by
  rcases hn with rfl | rfl | rfl | rfl <;> cases hw <;> exact after_ctrl_err ..

/-- Words 3 and 4 are halves for FREQr. -/
theorem after_composite_freq_err (hn : n = 2 ∨ n = 3) (hw : (k.words refclk)[n]? = some w) :
    rx.after ⟨w, .err e⟩ = rx.loseFreq k.r := by
  rcases hn with rfl | rfl <;> cases hw <;> exact after_freq_err ..

/-- Word 5 is for PHASEr. -/
theorem after_composite_phase_err (hw : (k.words refclk)[4]? = some w) :
    rx.after ⟨w, .err e⟩ = rx.losePhase k.r := by
  cases hw
  exact after_phase_err ..

end

/-- R222: while words 3 to 5 are in flight the device's control register is word 2. -/
theorem deviceAfter_ctrl_two (refclk : Hertz) (k : Composite) (rx : Rx) {n : Nat} (h2 : 2 ≤ n) (h4 : n ≤ 4) :
    (k.deviceAfter refclk rx n).ctrl = .known (ctrlWord (k.cacheAt 2)) := by
  have hcache : k.cacheAt n = k.cacheAt 2 := by interval_cases n <;> rfl
  rw [← hcache]
  exact deviceAfter_ctrl refclk k rx (by omega) (by omega)

/-- R222: a device whose control register is word 2, which sets RESET, has its output Forced. -/
theorem out_forced_of_word_two {k : Composite} {rx : Rx} (h : rx.ctrl = .known (ctrlWord (k.cacheAt 2))) :
    rx.out = .forced :=
  out_forced h ((getFlag_ctrlWord ..).trans (getFlag_cacheAt_reset k))

/-- R222: an APPLY or INIT whose word `n + 1` failed: RECONF, the cache the word was in flight with, and the device
with `n` words latched and the failed one's target lost. -/
theorem run_composite_failed {s : State} {c : Command} {rest : List Command} {k : Composite} {n : Nat}
    {e : TransportError} {as : List TxResult} (h : s.StartsComposite c rest k) (hn : n < 7)
    (ha : s.answers = List.replicate n .ok ++ .err e :: as) :
    ∃ t w, (k.words s.params.refclk)[n]? = some w ∧ run (n + 2) s = .next t ∧ t.fsm = .reconf ∧
      t.ctrl = k.cacheAt (n + 1) ∧ t.rx = (k.deviceAfter s.params.refclk s.rx n).after ⟨w, .err e⟩ := by
  obtain ⟨w, hw, hrun⟩ := compositeAbortsAtAnyWord s c rest k n e as h hn ha
  exact ⟨_, w, hw, hrun, rfl, rfl, List.foldl_append ..⟩

/-- Settles O41: the flags of the cache with which the failed word was in flight, and the device by that word's target. -/
theorem abortedCompositeTable : Obligations.AbortedCompositeTable := by
  intro s c rest k n e as h hn ha
  obtain ⟨t, w, hw, hrun, hfsm, hctrl, hrx⟩ := run_composite_failed h hn ha
  refine ⟨t, hrun, hfsm, ?_, fun h1 => ?_, ?_, fun h5 => ?_, fun hctrlWord => ?_, fun hfreqWord => ?_, ?_⟩
  · rw [hctrl, getFlag_cacheAt_reset]
    exact decide_eq_decide.2 (by omega)
  · rw [hctrl]
    exact getFlag_cacheAt_pair k (by omega)
  · rintro rfl
    exact hctrl
  · obtain ⟨hmode, hopbiten, -⟩ := getFlag_cacheAt_wave k (n := n + 1) (by omega)
    rw [hctrl]
    exact ⟨hmode, hopbiten⟩
  · rw [hrx, after_composite_ctrl_err _ e hctrlWord hw]
    exact loseCtrl_unknown _
  · rw [after_composite_freq_err _ e hfreqWord hw] at hrx
    have htwo : t.rx.ctrl = .known (ctrlWord (k.cacheAt 2)) := by
      rw [hrx, loseFreq_ctrl, deviceAfter_ctrl_two _ _ _ (by omega) (by omega)]
    exact ⟨htwo, hrx ▸ loseFreq_freq_self .., out_forced_of_word_two htwo⟩
  · rintro rfl
    rw [after_composite_phase_err _ e hw] at hrx
    have htwo : t.rx.ctrl = .known (ctrlWord (k.cacheAt 2)) := by
      rw [hrx, losePhase_ctrl, deviceAfter_ctrl_two _ _ _ (by decide) (by decide)]
    exact ⟨by simp [hrx, deviceAfter_four], hrx ▸ losePhase_phase_self .., out_forced_of_word_two htwo⟩

end Sys2Proof.Machine

/-! SUPPORT. Nothing stops the block (file 93): the accept step, the transmit-completion step and the refusal of
a header each answer a next state. -/

namespace Sys2Proof.Machine

/-- Every instruction is a command's accept step or a wire word's completion, and both answer a next state. -/
theorem exec_next (i : Instr) (s : State) : ∃ t, exec i s = .next t := by
  cases hi : i.isCommand with
  | true => exact exec_command hi s ▸ accept_next s _ _
  | false => exact exec_wire hi s ▸ transmit_next s _ _ _

/-- R86 and R223: the step that refuses a header takes the command and writes `resp`. -/
theorem step_of_refuse {s : State} {r : RefuseReason} {rest : List Command} (h : s.event = .refuse r rest) :
    step s = .next ((s.take rest).refuse r) := by simp only [step, h]

theorem step_next (s : State) : ∃ t, step s = .next t := by
  cases he : s.event with
  | wait => exact ⟨_, step_of_wait he⟩
  | refuse r rest => exact ⟨_, step_of_refuse he⟩
  | run i => exact step_of_run he ▸ exec_next i s

/-- Settles O8: `exec` by its two shared steps, the step by its three events. -/
theorem nothingStopsTheBlock : Obligations.NothingStopsTheBlock := ⟨exec_next, step_next⟩

end Sys2Proof.Machine

/-! SUPPORT. A word of the opcode table, placed where the next step takes its instruction from (log entry 7). -/

namespace Sys2Proof.Machine

theorem decodeTableWord_eq_some {w : Nat} {i : Instr} (h : decodeTableWord 16 w = some i) :
    decodeTable (BitVec.ofNat 16 w) = i := by
  unfold decodeTableWord at h
  split at h
  · exact Option.some.inj h
  · cases h

/-- A word put in flight has its answer: the transport's next one, or `Ok` where there was none. -/
theorem presentWord_answered (s : State) (w : Word) : ∃ res rest, (s.presentWord w).Answered res rest := by
  cases ha : s.answers with
  | nil => exact ⟨.ok, [], rfl, rfl, if_pos ha⟩
  | cons res rest => exact ⟨res, rest, rfl, rfl, by simp [State.presentWord, ha]⟩

/-- A command header is run from the command port (R191), any other word as the word in flight (R192). -/
theorem step_place (s : State) (w : Word) : step (s.place w) = exec (decodeTable w) (s.place w) := by
  cases hd : decodeHeader w with
  | cmd i =>
    have hplace : s.place w = s.presentCommand w := by simp only [State.place, hd]
    have htable : decodeTable w = i := by simp only [decodeTable, hd]
    rw [hplace, htable]
    exact stepRunsPresentedCommand _ _ _ i rfl rfl hd
  | refused r =>
    have hplace : s.place w = s.presentWord w := by simp only [State.place, hd]
    have htable : decodeTable w = decodeWire w := by simp only [decodeTable, hd]
    obtain ⟨res, rest, hanswered⟩ := presentWord_answered s w
    rw [hplace, htable]
    exact stepRunsWordInFlight _ res rest hanswered

/-- Settles O9: the instruction of the table's word is what `step_place` runs. -/
theorem placedWordIsTheOneRun : Obligations.PlacedWordIsTheOneRun := by
  intro s w i h
  obtain rfl := decodeTableWord_eq_some h
  exact step_place s (BitVec.ofNat 16 w)

end Sys2Proof.Machine

/-! SUPPORT. The state after power-on meets the invariant, whatever the OPEN parameters of R6 are. -/

namespace Sys2Proof.Machine

/-- R6: `INIT_FREQ_HZ` lies in `[0, REFCLK_HZ)`, whatever frequency the open choice is. -/
theorem initFreq_inRange : inRange Config.refclk Config.initFreq = true := by
  unfold Config.initFreq
  split
  · assumption
  · simp [inRange, Hertz.lt, Config.refclk]

/-- R6 and R21: the parameters the machine starts with meet their constraints. -/
theorem configParams_wf : Config.params.wf = true := by
  have hrefclk : (Hertz.rat 0).lt Config.refclk = true := by simp [Hertz.lt, Config.refclk]
  have hfreq := initFreq_inRange
  rw [inRange, Bool.and_eq_true] at hfreq
  simp [Params.wf, Config.params, hrefclk, hfreq]

/-- Settles O52: the parameters by `configParams_wf`; the block is not busy, and nothing has been sent. -/
theorem invariantAtPowerOn : Obligations.InvariantAtPowerOn where
  paramsWf := configParams_wf
  hardwired := rfl
  busyReq := rfl
  idleEmpty _ := ⟨rfl, rfl⟩
  inFlight := nofun
  waiting := rfl
  reconf := nofun
  uninit _ := ⟨rfl, rfl⟩
  replayed := rfl
  ordered := ⟨.free, rfl, rfl⟩

end Sys2Proof.Machine
